-- ==== Sys2Proof/Word.lean ====
section
/-! DEFINITION. Word.lean: the value types of the core: bytes, 16-bit readings, CAN identifiers, and the
readings of type `F` (00_scope.md section 4). -/

namespace Sys2Proof

/-- A byte, `0x00..0xFF` (00_scope.md section 4). -/
abbrev Byte := BitVec 8

/-- `u16`, the type of a wide reading (10_state.md R12). -/
abbrev U16 := BitVec 16

/-- The 11-bit CAN identifier (10_state.md R11, 30_encoding.md R38). -/
abbrev CanId := BitVec 11

/-- The kinds of non-finite reading (00_scope.md section 4: NaN, +Inf, -Inf). -/
inductive NonFinite where
  | nan
  | posInf
  | negInf
  deriving DecidableEq, Repr, Inhabited

/-- `F`, a floating-point reading: a finite real value or a non-finite one (00_scope.md section 4). The
number format is the open parameter `P_FLOAT` (`FloatFormat` in Config.lean); every finite value of every
floating-point format is a rational, so `finite` can hold each of them. -/
inductive Reading where
  | finite (x : Rat)
  | nonFinite (n : NonFinite)
  deriving DecidableEq, Repr, Inhabited

end Sys2Proof
end

