-- ==== Sys2Proof/Syntax.lean ====
section
/-! DEFINITION. Syntax.lean: the 22 operations of opcode_table.json, one constructor each, with the slots
they act on, the four formats they are encoded in (30_encoding.md), and the reasons a word is rejected. -/

namespace Sys2Proof

/-- The six measurement slots in the fixed slot order, k = 0..5 (00_scope.md R7). -/
inductive Slot where
  | methane
  | co2
  | co
  | temperature
  | humidity
  | pressure
  deriving DecidableEq, Repr

/-- The slot index k (00_scope.md R7). -/
def Slot.index : Slot → Nat
  | .methane => 0
  | .co2 => 1
  | .co => 2
  | .temperature => 3
  | .humidity => 4
  | .pressure => 5

/-- The six slots in slot order. -/
def Slot.all : List Slot := [.methane, .co2, .co, .temperature, .humidity, .pressure]

/-- An operation of the core: one constructor per row of opcode_table.json.
Format RXF: what a poll's answer makes the core do. Format SEL: what one selector position makes RX_REQUEST
do. Format SLOTOP: the multiplexer's choice for a slot. Format TXF: what the dispatcher does.
The length of an inbound frame is the length of its `data`. -/
inductive Instr where
  | pollNone
  | rxDiscard (id : CanId) (data : List Byte)
  | rxRequest (data : List Byte)
  | selReq (i : Slot)
  | selSkip (i : Slot) (b : Byte)
  | selAbsent (i : Slot)
  | selIgnored (i : Nat) (b : Byte)
  | encMethane
  | encCo2
  | encCo
  | encTemp
  | encHum
  | encPres
  | fillMethane
  | fillCo2
  | fillCo
  | fillTemp
  | fillHum
  | fillPres
  | txF1
  | txF2
  | noF2
  deriving DecidableEq, Repr

/-- The four formats of 30_encoding.md. A word does not say which format it is in: the place it comes from
(the RX port, a selector position, the multiplexer, the dispatcher) does. -/
inductive Format where
  | rxf
  | sel
  | slotop
  | txf
  deriving DecidableEq, Repr

/-- Why a word is rejected. Each names a word that no well-formed operation is encoded as; the
sequencer and the ports never form one (30_encoding.md R42, R46). -/
inductive DecodeError where
  /-- An RXF word of one byte: the identifier and length take two. -/
  | headTruncated
  /-- Bit 15 of an RXF word is set. -/
  | reservedHeadBit
  /-- The declared length is over 8 (30_encoding.md R38). -/
  | lengthOver8
  /-- Fewer payload bytes than the declared length. -/
  | payloadTruncated
  /-- A SEL word shorter than its two bytes. -/
  | selectorTruncated
  /-- Bits 15..12 of a SEL word are not zero. -/
  | reservedSelectorBits
  /-- A position of no class: 6 or 7 and past the frame's length (30_encoding.md R41). -/
  | noSelectorClass
  /-- An absent position with a byte: SEL_ABSENT has none. -/
  | absentWithByte
  /-- No SLOTOP byte. -/
  | slotopTruncated
  /-- Bits 7..4 of a SLOTOP byte are not zero: the code has four bits. -/
  | reservedSlotopBits
  /-- A SLOTOP code 0xC to 0xF, never formed (30_encoding.md R42). -/
  | slotopNeverFormed
  /-- A TXF word of one byte: the identifier takes two. -/
  | txTruncated
  /-- A TXF word that is neither response identifier (30_encoding.md R43, R44). -/
  | notAResponse
  deriving DecidableEq, Repr

end Sys2Proof
end

