-- ==== Sys2Proof/Config.lean ====
section
/-! DEFINITION. Config.lean: the core's fixed parameters (00_scope.md R7), the decided ones (R8), the free values the
spec leaves open (60_exceptions.md R86), and the choices of the configuration fields `P_FLOAT`, `P_MEAN` and `P_KPA`. No other file writes one of these literals as a
value of the machine (00_scope.md R9); the literals are unaudited against the code (log 20). -/

namespace Sys2Proof

/-- `REQ_ID`. -/
def Config.reqId : CanId := 0x1A4

/-- `RSP1_ID`. -/
def Config.rsp1Id : CanId := 0x1A5

/-- `RSP2_ID`. -/
def Config.rsp2Id : CanId := 0x1A6

/-- `SENTINEL`: the selector byte that means "requested". -/
def Config.sentinel : Byte := 0x11

/-- `FILL`: the filler byte of a slot that is not requested. -/
def Config.fill : Byte := 0xFF

/-- `N_SLOTS`. -/
def Config.nSlots : Nat := 6

/-- `BUF_LEN`. -/
def Config.bufLen : Nat := 9

/-- `F1_LEN`. -/
def Config.f1Len : Nat := 8

/-- `F2_LEN`. -/
def Config.f2Len : Nat := 1

/-- `KPA_DIV`: from Pa to kPa. -/
def Config.kpaDiv : Rat := 1000

/-- `RX_MAX_LEN` (00_scope.md R8, decision D2). -/
def Config.rxMaxLen : Nat := 8

/-- `P_PRES_FILL`: the reference behaviour the spec decides on (decision D8). -/
def Config.presFill : Byte := 0xFF

/-- The alternative of `P_PRES_FILL` that 41_field_encode.md R75 names; the machine never uses it, statements
about the patched variant do. -/
def Config.presFillPatched : Byte := 0x00

/-- `W[k]`, the byte width of a slot. -/
def Slot.width : Slot → Nat
  | .methane => 2
  | .co2 => 2
  | .co => 2
  | .temperature => 1
  | .humidity => 1
  | .pressure => 1

/-- `OFF[k]`, the first buffer index of a slot. -/
def Slot.offset : Slot → Nat
  | .methane => 0
  | .co2 => 2
  | .co => 4
  | .temperature => 6
  | .humidity => 7
  | .pressure => 8

/-- `P_NONFINITE`, the byte `T8` gives for a non-finite reading: a draw, any byte, under no law
(41_field_encode.md R58, 60_exceptions.md R86). A FREE VALUE: the n-th draw of the run, with no body (log 6). -/
opaque Config.nonFiniteByte : Nat → Byte

/-- Which non-finite value `P_MEAN` gives when an operand is non-finite: 41_field_encode.md R60 says only that
it is non-finite. A FREE VALUE (log 7). -/
opaque Config.meanNonFinite : Reading → Reading → NonFinite

/-- Which non-finite value `P_KPA` gives of a non-finite reading (41_field_encode.md R62). A FREE VALUE (log 7). -/
opaque Config.kpaNonFinite : NonFinite → NonFinite

/-! ### Configuration fields -/

/-- `P_FLOAT`, the number format of the readings of type `F`, OPEN (00_scope.md R8): every finite real value that is a
rational, or the finite values of format number `n`. Which format the number names is open too. -/
inductive FloatFormat where
  | rational
  | format (n : Nat)
  deriving DecidableEq, Repr

/-- What `P_MEAN` or `P_KPA` is (00_scope.md R8, decision D9): the decided default, exact rational arithmetic, or
configuration function number `n`, such as the arithmetic of some floating-point format. -/
inductive Derivation where
  | exact
  | configured (n : Nat)
  deriving DecidableEq, Repr

/-- The configuration fields of a core: the number format of its readings and its two derivations. They are chosen when the
core is built and no step changes them (log 24). -/
structure Params where
  float : FloatFormat := .rational
  mean : Derivation := .exact
  kpa : Derivation := .exact
  deriving DecidableEq, Repr

/-- Whether format number `n` has a finite value. A FREE VALUE: `P_FLOAT` is open (log 24). -/
opaque Config.formatHas : Nat → Rat → Bool

/-- Configuration function number `n` for `P_MEAN`, on finite operands. It depends only on them (60_exceptions.md R86), and may
be non-finite (a sum that overflows). A FREE VALUE (log 24). -/
opaque Config.configuredMean : Nat → Rat → Rat → Reading

/-- Configuration function number `n` for `P_KPA`, on a finite operand. A FREE VALUE (log 24). -/
opaque Config.configuredKpa : Nat → Rat → Reading

end Sys2Proof
end

