-- ==== Sys2Proof/Machine/State.lean ====
section
/-! DEFINITION. State.lean: the core's state (10_state.md), the events and effects at its three ports, the reasons
a step stops, and the state after reset. -/

namespace Sys2Proof.Machine

/-- A fault reason (60_exceptions.md R83). -/
inductive Fault where
  /-- Raised by the buffer write primitive `put` when `cur >= 9`, which records it in `flt`; a step of a core
  whose `flt` holds it is this fault, because the core has no further step (41_field_encode.md R77). Safe: no
  run reaches it, and the reference writes no tenth byte. -/
  | bufferOverrun
  deriving DecidableEq, Repr

/-- Why the model refuses a step. All but the last four are inputs outside the port types (60_exceptions.md R84,
70_reset_and_hazards.md R110); every one is safe, since the model stops where the core might go on. -/
inductive Refusal where
  /-- Raised by `step`: the RX port delivers a frame whose declared length is over 8 (R84). Safe. -/
  | frameLengthOver8
  /-- Raised by `step`: the RX port delivers a frame whose identifier is over 0x7FF (R84). Safe. -/
  | frameIdOver11Bits
  /-- Raised by `step`: the transport marks the frame as extended-format (R84). Safe. -/
  | frameExtended
  /-- Raised by `step`: the transport marks the frame as remote (R84). Safe. -/
  | frameRemote
  /-- Raised by `step`: the RX port delivers fewer payload bytes than the declared length (R11, log 17). Safe. -/
  | framePayloadMissing
  /-- Raised by ENC_METHANE, ENC_CO2 and ENC_CO: a wide reading outside 0..65535 (R84). Safe. -/
  | wideReadingOutOfRange
  /-- Raised by the ENC operations: an answer of another slot's type (R110: "a wrong type is refused"). Safe. -/
  | answerOfWrongType
  /-- Raised by ENC_TEMP, ENC_HUM and ENC_PRES: a finite reading that the number format `P_FLOAT` does not have, so no
  value of type `F` (R12, log 24). Safe. -/
  | readingOutsideFormat
  /-- Raised by the ENC operations: an answer for a slot other than the outstanding one (R84). Safe. -/
  | answerForOtherSlot
  /-- Raised by `step` in IDLE, by the ENC and FILL operations in ASM(k), and by TX_F1 and TX_F2: a sensor answer when no
  read is outstanding (R84). Safe. -/
  | answerWithoutRead
  /-- Raised by `step` in IDLE: the RX transport does not answer the poll, which R110 puts outside the model. Safe. -/
  | pollUnanswered
  /-- Raised by the ENC and FILL operations, TX_F1 and TX_F2: an answer to a poll in the middle of a cycle, when the core
  polls nothing (20_memory.md R35, log 17). Safe. -/
  | pollAnswerWithoutPoll
  /-- Raised by `step` in IDLE and by the ENC and FILL operations: an acceptance when no frame is offered
  (R13, log 17). Safe. -/
  | acceptWithoutOffer
  /-- Raised by a meaning that `exec` is asked for in a sequencer state in which the sequencer does not reach the
  operation (10_state.md R16, log 16). `step` never answers it. Safe. -/
  | outOfSequence
  /-- Raised by `step`: the word of the place the core reads from is no operation's. `step` never answers it
  (30_encoding.md R42, R46). Safe. -/
  | undecodable (e : DecodeError)
  /-- Raised by `exec` for an operation that has no meaning yet; no arm does. Safe. -/
  | notModelled (mnemonic : String)
  deriving DecidableEq, Repr

/-- The sequencer state `st` (10_state.md R15). -/
inductive SeqState where
  | idle
  | asm (k : Slot)
  | wait (k : Slot)
  | tx1
  | tx2
  deriving DecidableEq, Repr

/-- A frame as the RX transport hands it over, before the port's types are checked (10_state.md R11,
60_exceptions.md R84). `data` may hold stale bytes past `len`, which are no payload (log 21). -/
structure RxFrame where
  id : Nat
  len : Nat
  data : List Byte
  extended : Bool := false
  remote : Bool := false
  deriving DecidableEq, Repr

/-- What a sensor answers, before the slot's type is checked (10_state.md R12): an integer (slots 0 to 2), a pair,
ambient first (slots 3 and 4), or one reading in Pa (slot 5). -/
inductive SensValue where
  | wide (n : Int)
  | pair (a c : Reading)
  | single (p : Reading)
  deriving DecidableEq, Repr

/-- A frame the core offers to the TX transport (10_state.md R13). -/
structure TxFrame where
  id : CanId
  len : Nat
  data : List Byte
  deriving DecidableEq, Repr

/-- What a reset leaves unspecified (70_reset_and_hazards.md R98): draws, which the event brings (log 5). -/
structure ResetDraw where
  sel : BitVec 6
  buf : Vector Byte 9
  cur : Fin 10
  deriving DecidableEq, Repr

/-- An event at a port, one line of the stimulus of 30_encoding.md R48, with a line for a step in which no agent
acts and one for reset. -/
inductive PortEvent where
  /-- `RXNONE`: the RX transport answers the poll with `none`. -/
  | rxNone
  /-- `RX`: the RX transport answers the poll with this frame. -/
  | rx (f : RxFrame)
  /-- `SENS`: the sensor port answers a read of slot `k`. -/
  | sens (k : Slot) (v : SensValue)
  /-- `TX`: the TX transport accepts the offered frame. -/
  | txAccept
  /-- One step passes in which no agent acts. -/
  | silent
  /-- The core is reset (70_reset_and_hazards.md R98). -/
  | reset (d : ResetDraw)
  deriving DecidableEq, Repr

/-- An externally visible effect of the core (20_memory.md R35, 70_reset_and_hazards.md R102): the poll that returned a
request frame, the issue of a sensor read, a frame the TX transport has accepted; and the reset that abandons a
cycle. -/
inductive Effect where
  | polled (data : List Byte)
  | read (k : Slot)
  | sent (f : TxFrame)
  | reset
  deriving DecidableEq, Repr

/-- The OutputBuffer as cells (index, byte): indices strictly rising, no cell equal to `unlistedByte`. -/
abbrev Memory := List Host.Cell

/-- What a buffer byte that nothing has written reads as. The spec gives no value (10_state.md R27).
DESIGN CHOICE, unsafe (log 4). -/
def unlistedByte : Byte := 0x00

/-- The canonical form from index `lo` on: rising indices from `lo` to 8, no cell equal to `unlistedByte`. -/
def Memory.wfFrom (lo : Nat) : Memory → Bool
  | [] => true
  | (a, v) :: rest => lo ≤ a && a < Config.bufLen && v != unlistedByte && Memory.wfFrom (a + 1) rest

/-- The canonical form of the OutputBuffer. -/
def Memory.wf (m : Memory) : Bool := Memory.wfFrom 0 m

/-- The state. `st`, `sel`, `buf`, `cur` and `flt` are the core's (10_state.md R14 to R21). The outstanding read and
offer of 10_state.md R27 are computed from `st` and `buf`. `stim` is what the agents around the core will do (log 2).
`log` (the observation, log 18) and `draws` (how many free bytes have been drawn, log 6) are the model's own, and
`params` carries the configuration fields, which are the machine's and no state of it (10_state.md R25, log 24). -/
structure State where
  params : Params
  st : SeqState
  sel : BitVec 6
  buf : Memory
  cur : Nat
  flt : List Fault
  stim : List PortEvent
  log : List Effect
  draws : Nat
  deriving DecidableEq, Repr

/-- The machine right after reset (10_state.md R27): IDLE, no fault. `sel`, `buf` and `cur` are unspecified; the
values here are the model's (DESIGN CHOICE, unsafe, log 3). The derivations are the decided defaults (decision D9); the
open number format is the one that has every value (log 24). -/
def State.reset : State where
  params := {}
  st := .idle
  sel := 0
  buf := []
  cur := 0
  flt := []
  stim := []
  log := []
  draws := 0

end Sys2Proof.Machine
end

