-- ==== Sys2Proof/Machine/Ops.lean ====
section
/-! DEFINITION. Ops.lean: the named operations over the buffer, the registers, the sequencer and the ports, with the
recording of a fault (the core has no trap entry and no trap return: 60_exceptions.md R89, R90) and reset. -/

namespace Sys2Proof.Machine

/-- One step's outcome. -/
abbrev Result := Host.Outcome State Fault Refusal

/-! ### The OutputBuffer -/

/-- The byte at an index. -/
def Memory.read : Memory → Nat → Byte
  | [], _ => unlistedByte
  | (x, v) :: rest, a => if x = a then v else Memory.read rest a

/-- The cell put in front, unless an unlisted byte reads the same. -/
def consCell (a : Nat) (v : Byte) (m : Memory) : Memory := if v = unlistedByte then m else (a, v) :: m

/-- Write one byte, keeping the canonical form. -/
def Memory.write : Memory → Nat → Byte → Memory
  | [], a, v => consCell a v []
  | (x, u) :: rest, a, v =>
    if a < x then consCell a v ((x, u) :: rest)
    else if a = x then consCell a v rest
    else (x, u) :: Memory.write rest a v

/-- The cells of a list of bytes laid out from an index on. -/
def bufferFrom (a : Nat) : List Byte → Memory
  | [] => []
  | b :: bs => consCell a b (bufferFrom (a + 1) bs)

/-- The bytes `buf[a], ..., buf[a + n - 1]`. -/
def readBytes (m : Memory) (a n : Nat) : List Byte := (List.range' a n).map m.read

/-! ### The registers -/

/-- `sel[k]` (10_state.md R17). -/
def State.selected (s : State) (k : Slot) : Bool := s.sel.getLsbD k.index

/-- A 6-bit register with the bit of a slot set to a value. -/
def setBit (r : BitVec 6) (k : Slot) (b : Bool) : BitVec 6 :=
  if b then r ||| BitVec.twoPow 6 k.index else r &&& ~~~(BitVec.twoPow 6 k.index)

/-- `sel[k] <- b`. -/
def State.setSel (s : State) (k : Slot) (b : Bool) : State := { s with sel := setBit s.sel k b }

/-- `cur <- 0` (10_state.md R20). -/
def State.clearCur (s : State) : State := { s with cur := 0 }

/-! ### The sequencer -/

/-- `st <- S`. -/
def State.goto (s : State) (st : SeqState) : State := { s with st := st }

/-- `next(k)` (41_field_encode.md R63): ASM(k+1), or TX1 after the last slot. -/
def nextOf : Slot → SeqState
  | .methane => .asm .co2
  | .co2 => .asm .co
  | .co => .asm .temperature
  | .temperature => .asm .humidity
  | .humidity => .asm .pressure
  | .pressure => .tx1

/-- The slot whose read is outstanding (10_state.md R15, R27). -/
def State.outstandingRead (s : State) : Option Slot :=
  match s.st with
  | .wait k => some k
  | _ => none

/-! ### Faults -/

/-- `raise Fault(r)` (00_scope.md section 4, 60_exceptions.md R83): the reason is added to the sticky set; nothing else
changes. -/
def raiseFault (r : Fault) (s : State) : State :=
  { s with flt := if r ∈ s.flt then s.flt else s.flt ++ [r] }

/-- The fault a core that has recorded one stops with: it has no further step (41_field_encode.md R77,
60_exceptions.md R89). -/
def halted (s : State) : Option Fault := s.flt.head?

/-! ### The ports -/

/-- Record an effect. -/
def State.emit (s : State) (e : Effect) : State := { s with log := s.log ++ [e] }

/-- The stimulus after a step that no agent takes part in: its line `silent` is taken; no line left means that the agents
stay silent. -/
def passSilent : List PortEvent → List PortEvent
  | .silent :: rest => rest
  | stim => stim

/-- A step of the core that uses no port, or a hold, goes by. -/
def State.tick (s : State) : State := { s with stim := passSilent s.stim }

/-- A step of the core that needs no agent (ASM(k)): nothing is outstanding at any port, so an answer, a poll's answer or an
acceptance that comes now is refused (60_exceptions.md R84, log 17). -/
def quietStep (act : State → Result) (s : State) : Result :=
  match s.stim with
  | .sens _ _ :: _ => .refused .answerWithoutRead
  | .rxNone :: _ => .refused .pollAnswerWithoutPoll
  | .rx _ :: _ => .refused .pollAnswerWithoutPoll
  | .txAccept :: _ => .refused .acceptWithoutOffer
  | .silent :: _ => act s.tick
  | .reset _ :: _ => act s
  | [] => act s

/-- The stimulus after a poll: the answer is consumed (10_state.md R11). -/
def passPoll : List PortEvent → List PortEvent
  | .rxNone :: rest => rest
  | .rx _ :: rest => rest
  | stim => stim

/-- `rx.poll()` has been answered. -/
def State.polled (s : State) : State := { s with stim := passPoll s.stim }

/-- ResponseFrame1 (30_encoding.md R43): `buf[0..7]` in index order. -/
def frame1 (m : Memory) : TxFrame where
  id := Config.rsp1Id
  len := Config.f1Len
  data := readBytes m 0 Config.f1Len

/-- ResponseFrame2 (30_encoding.md R44): `[buf[8]]`. -/
def frame2 (m : Memory) : TxFrame where
  id := Config.rsp2Id
  len := Config.f2Len
  data := readBytes m Config.f1Len Config.f2Len

/-- The frame that is offered to the TX transport (10_state.md R15, R27). -/
def State.outstandingOffer (s : State) : Option TxFrame :=
  match s.st with
  | .tx1 => some (frame1 s.buf)
  | .tx2 => some (frame2 s.buf)
  | _ => none

/-! ### put -/

/-- The buffer write primitive (41_field_encode.md R77). `error` carries the state after the fault was raised. -/
def put (v : Byte) (s : State) : Except State State :=
  if Config.bufLen ≤ s.cur then .error (raiseFault .bufferOverrun s)
  else .ok { s with buf := s.buf.write s.cur v, cur := s.cur + 1 }

/-- `put` of each byte in turn, up to the first that raises. -/
def putAll : List Byte → State → Except State State
  | [], s => .ok s
  | v :: vs, s =>
    match put v s with
    | .ok s' => putAll vs s'
    | .error s' => .error s'

/-- The end of a slot's step (41_field_encode.md R63): its bytes are written and `st <- next(k)`; where `put` raises,
the fault is recorded and `st` stays (R77, log 15). -/
def writeSlot (k : Slot) (bytes : List Byte) (s : State) : Result :=
  match putAll bytes s with
  | .ok s' => .next (s'.goto (nextOf k))
  | .error s' => .next s'

/-! ### Shared steps -/

/-- The fill step (41_field_encode.md R63): W[k] times the filler byte. -/
def fillSlot (k : Slot) (filler : Byte) (s : State) : Result :=
  if s.st = .asm k then quietStep (writeSlot k (List.replicate k.width filler)) s
  else .refused .outOfSequence

/-- The issue step (41_field_encode.md R63): `issue sens.read(k); st <- WAIT(k)`. -/
def issueRead (k : Slot) (s : State) : Result :=
  quietStep (fun s => .next ((s.emit (.read k)).goto (.wait k))) s

/-- The hold in WAIT(k) (60_exceptions.md R85): it lasts until the sensor answers; `complete` is the rest of the step
on the answer. -/
def awaitSensor (k : Slot) (complete : SensValue → State → Result) (s : State) : Result :=
  match s.stim with
  | .sens j v :: rest => if j = k then complete v { s with stim := rest } else .refused .answerForOtherSlot
  | .rxNone :: _ => .refused .pollAnswerWithoutPoll
  | .rx _ :: _ => .refused .pollAnswerWithoutPoll
  | .txAccept :: _ => .refused .acceptWithoutOffer
  | .silent :: _ => .next s.tick
  | .reset _ :: _ => .next s
  | [] => .next s

/-- The encode step of slot `k`, in ASM(k) its issue and in WAIT(k) its completion (41_field_encode.md R63). -/
def encodeSlot (k : Slot) (complete : SensValue → State → Result) (s : State) : Result :=
  if s.st = .asm k then issueRead k s
  else if s.st = .wait k then awaitSensor k complete s
  else .refused .outOfSequence

/-- The hold in TX1 and TX2 (60_exceptions.md R85): it lasts until the transport accepts; `accepted` is the rest of
the step. -/
def awaitAccept (accepted : State → State) (s : State) : Result :=
  match s.stim with
  | .txAccept :: rest => .next (accepted { s with stim := rest })
  | .sens _ _ :: _ => .refused .answerWithoutRead
  | .rxNone :: _ => .refused .pollAnswerWithoutPoll
  | .rx _ :: _ => .refused .pollAnswerWithoutPoll
  | .silent :: _ => .next s.tick
  | .reset _ :: _ => .next s
  | [] => .next s

/-! ### Reset -/

/-- The state after reset with the unspecified registers at the drawn values (10_state.md R27,
70_reset_and_hazards.md R98): IDLE, no fault; what the ports will do and the log go on. -/
def applyReset (d : ResetDraw) (s : State) : State :=
  { s with st := .idle, sel := d.sel, buf := bufferFrom 0 d.buf.toList, cur := d.cur, flt := [],
           log := s.log ++ [.reset] }

/-- The state after the reset that comes now, if one does. -/
def resetNow (s : State) : Option State :=
  match s.stim with
  | .reset d :: rest => some (applyReset d { s with stim := rest })
  | _ => none

end Sys2Proof.Machine
end

