-- ==== Sys2Proof/Machine/Operands.lean ====
section
/-! DEFINITION. Operands.lean: the operand forms: the RX port's frames (10_state.md R11), the sensor port's answers
(R12), the encoders and the derivations (30_encoding.md R45, 41_field_encode.md R58 to R62). -/

namespace Sys2Proof.Machine

/-! ### Port types -/

/-- The frame of the RX port's type, or the refusal of an out-of-type one (60_exceptions.md R84). The payload is
`data[0..len-1]`; bytes past `len` are not read (40_request_decode.md R55, log 21). -/
def portFrame (f : RxFrame) : Except Refusal (CanId × List Byte) :=
  if f.extended then .error .frameExtended
  else if f.remote then .error .frameRemote
  else if Config.rxMaxLen < f.len then .error .frameLengthOver8
  else if 0x7FF < f.id then .error .frameIdOver11Bits
  else if f.data.length < f.len then .error .framePayloadMissing
  else .ok (BitVec.ofNat 11 f.id, f.data.take f.len)

/-- A `u16` answer (slots 0 to 2). -/
def wideAnswer : SensValue → Except Refusal U16
  | .wide n => if 0 ≤ n ∧ n ≤ 65535 then .ok (BitVec.ofInt 16 n) else .error .wideReadingOutOfRange
  | .pair _ _ => .error .answerOfWrongType
  | .single _ => .error .answerOfWrongType

/-- The number format has a finite value (00_scope.md R8, `P_FLOAT`). -/
def formatHas : FloatFormat → Rat → Bool
  | .rational, _ => true
  | .format n, x => Config.formatHas n x

/-- A reading is one of type `F` in the number format; NaN and the infinities are in every one. -/
def readingInFormat (f : FloatFormat) : Reading → Bool
  | .finite x => formatHas f x
  | .nonFinite _ => true

/-- A pair answer (slots 3 and 4), the ambient sensor's value first. -/
def pairAnswer (f : FloatFormat) : SensValue → Except Refusal (Reading × Reading)
  | .pair a c => if readingInFormat f a && readingInFormat f c then .ok (a, c) else .error .readingOutsideFormat
  | .wide _ => .error .answerOfWrongType
  | .single _ => .error .answerOfWrongType

/-- A single answer (slot 5). -/
def singleAnswer (f : FloatFormat) : SensValue → Except Refusal Reading
  | .single p => if readingInFormat f p then .ok p else .error .readingOutsideFormat
  | .wide _ => .error .answerOfWrongType
  | .pair _ _ => .error .answerOfWrongType

/-! ### Encoders -/

/-- `W16` (41_field_encode.md R59, 20_memory.md R29): the most significant byte first. -/
def w16 (v : U16) : List Byte := [v.extractLsb' 8 8, v.extractLsb' 0 8]

/-- `trunc(x)`: the integer part, toward zero (00_scope.md section 4). -/
def truncRat (x : Rat) : Int := x.num.tdiv x.den

/-- `T8` (41_field_encode.md R58): truncate toward zero, keep the low 8 bits; `drawn` where the reading is not finite. -/
def t8 (drawn : Byte) : Reading → Byte
  | .finite x => BitVec.ofInt 8 (truncRat x)
  | .nonFinite _ => drawn

/-- How many free bytes `T8` draws: one for a non-finite reading (log 6). -/
def t8Draws : Reading → Nat
  | .finite _ => 0
  | .nonFinite _ => 1

/-! ### Derivations -/

/-- `P_MEAN` of finite operands: the exact mean, or the configured function's value (decision D9, log 8). -/
def finiteMean : Derivation → Rat → Rat → Reading
  | .exact, a, b => .finite ((a + b) / 2)
  | .configured n, a, b => Config.configuredMean n a b

/-- `P_MEAN` (41_field_encode.md R60, R61): non-finite where an operand is, whatever the configuration. -/
def pMean (d : Derivation) : Reading → Reading → Reading
  | .finite a, .finite b => finiteMean d a b
  | .finite a, .nonFinite n => .nonFinite (Config.meanNonFinite (.finite a) (.nonFinite n))
  | .nonFinite n, b => .nonFinite (Config.meanNonFinite (.nonFinite n) b)

/-- `P_KPA` of a finite operand: the exact quotient, or the configured function's value (decision D9, log 8). -/
def finiteKpa : Derivation → Rat → Reading
  | .exact, p => .finite (p / Config.kpaDiv)
  | .configured n, p => Config.configuredKpa n p

/-- `P_KPA` (41_field_encode.md R62): non-finite where the operand is, whatever the configuration. -/
def pKpa (d : Derivation) : Reading → Reading
  | .finite p => finiteKpa d p
  | .nonFinite n => .nonFinite (Config.kpaNonFinite n)

/-! ### Completions -/

/-- Write a wide answer to slot `k` (41_field_encode.md R64 to R66). -/
def completeWide (k : Slot) (v : SensValue) (s : State) : Result :=
  match wideAnswer v with
  | .ok u => writeSlot k (w16 u) s
  | .error r => .refused r

/-- Write `T8(x)` to slot `k`; a non-finite `x` takes the next free byte. -/
def writeTruncated (k : Slot) (x : Reading) (s : State) : Result :=
  writeSlot k [t8 (Config.nonFiniteByte s.draws) x] { s with draws := s.draws + t8Draws x }

/-- Write the mean of a pair answer to slot `k` (41_field_encode.md R67, R68). -/
def completeMean (k : Slot) (v : SensValue) (s : State) : Result :=
  match pairAnswer s.params.float v with
  | .ok (a, c) => writeTruncated k (pMean s.params.mean a c) s
  | .error r => .refused r

/-- Write the kPa value of a pressure answer to slot `k` (41_field_encode.md R69). -/
def completeKpa (k : Slot) (v : SensValue) (s : State) : Result :=
  match singleAnswer s.params.float v with
  | .ok p => writeTruncated k (pKpa s.params.kpa p) s
  | .error r => .refused r

end Sys2Proof.Machine
end

