-- ==== Sys2Proof/Machine/Encode.lean ====
section
/-! DEFINITION. Encode.lean: the encode operations, `sel[k] = 1` (41_field_encode.md R63 to R69). Each is the issue of
the read in ASM(k) and the completion in WAIT(k). -/

namespace Sys2Proof.Machine

/-- ENC_METHANE (R64): `buf[0..1] = W16(m)`. -/
def execEncMethane (s : State) : Result := encodeSlot .methane (completeWide .methane) s

/-- ENC_CO2 (R65): `buf[2..3] = W16(c2)`. -/
def execEncCo2 (s : State) : Result := encodeSlot .co2 (completeWide .co2) s

/-- ENC_CO (R66): `buf[4..5] = W16(co)`. -/
def execEncCo (s : State) : Result := encodeSlot .co (completeWide .co) s

/-- ENC_TEMP (R67): `buf[6] = T8(P_MEAN(ta, tc))`. -/
def execEncTemp (s : State) : Result := encodeSlot .temperature (completeMean .temperature) s

/-- ENC_HUM (R68): `buf[7] = T8(P_MEAN(ha, hc))`. -/
def execEncHum (s : State) : Result := encodeSlot .humidity (completeMean .humidity) s

/-- ENC_PRES (R69): `buf[8] = T8(P_KPA(p))`. -/
def execEncPres (s : State) : Result := encodeSlot .pressure (completeKpa .pressure) s

end Sys2Proof.Machine
end

