-- ==== Sys2Proof/Machine/Fill.lean ====
section
/-! DEFINITION. Fill.lean: the fill operations, `sel[k] = 0` (41_field_encode.md R63, R70 to R75). No sensor read is
issued. -/

namespace Sys2Proof.Machine

/-- FILL_METHANE (R70). -/
def execFillMethane (s : State) : Result := fillSlot .methane Config.fill s

/-- FILL_CO2 (R71). -/
def execFillCo2 (s : State) : Result := fillSlot .co2 Config.fill s

/-- FILL_CO (R72). -/
def execFillCo (s : State) : Result := fillSlot .co Config.fill s

/-- FILL_TEMP (R73). -/
def execFillTemp (s : State) : Result := fillSlot .temperature Config.fill s

/-- FILL_HUM (R74). -/
def execFillHum (s : State) : Result := fillSlot .humidity Config.fill s

/-- FILL_PRES (R75): the filler is `P_PRES_FILL`. -/
def execFillPres (s : State) : Result := fillSlot .pressure Config.presFill s

end Sys2Proof.Machine
end

