-- ==== Sys2Proof/Machine/Flags.lean ====
section
/-! DEFINITION. Flags.lean: the core's two flag computations: the selection flags (10_state.md R17,
40_request_decode.md R53 to R57) and the second-frame condition (10_state.md R18). -/

namespace Sys2Proof.Machine

/-- SEL_REQ (40_request_decode.md R53). -/
def requestSlot (k : Slot) (s : State) : State := s.setSel k true

/-- SEL_SKIP (40_request_decode.md R54). -/
def skipSlot (k : Slot) (s : State) : State := s.setSel k false

/-- SEL_ABSENT (40_request_decode.md R55): no byte is read. -/
def absentSlot (k : Slot) (s : State) : State := s.setSel k false

/-- SEL_IGNORED (40_request_decode.md R56): nothing is done. -/
def ignoreByte (s : State) : State := s

/-- What RX_REQUEST does at the selector position of slot `k` (40_request_decode.md R52). -/
def decodePosition (data : List Byte) (s : State) (k : Slot) : State :=
  match data[k.index]? with
  | some b => if b = Config.sentinel then requestSlot k s else skipSlot k s
  | none => absentSlot k s

/-- The selector decode of RX_REQUEST (40_request_decode.md R52): the six positions, then the bytes past them, which
are not read. -/
def decodeSelectors (data : List Byte) (s : State) : State :=
  (data.drop Config.nSlots).foldl (fun s _ => ignoreByte s) (Slot.all.foldl (decodePosition data) s)

/-- F2 is sent if and only if `buf[8] ≠ 0x00` (10_state.md R18). -/
def secondFrame (m : Memory) : Bool := m.read Config.f1Len != 0x00

end Sys2Proof.Machine
end

