-- ==== Sys2Proof/Machine/Poll.lean ====
section
/-! DEFINITION. Poll.lean: the meanings of format RXF, the operations of IDLE (40_request_decode.md R50 to R52). -/

namespace Sys2Proof.Machine

/-- POLL_NONE (R50): nothing is written. -/
def execPollNone (s : State) : Result :=
  if s.st = .idle then .next (s.polled.goto .idle) else .refused .outOfSequence

/-- RX_DISCARD (R51): the frame is consumed and dropped; its identifier, length and data have no effect. -/
def execRxDiscard (_id : CanId) (_data : List Byte) (s : State) : Result :=
  if s.st = .idle then .next (s.polled.goto .idle) else .refused .outOfSequence

/-- RX_REQUEST (R52): all six selection flags, the cursor, and ASM(0), in one step. -/
def execRxRequest (data : List Byte) (s : State) : Result :=
  if s.st = .idle then
    .next (((decodeSelectors data (s.polled.emit (.polled data))).clearCur).goto (.asm .methane))
  else .refused .outOfSequence

end Sys2Proof.Machine
end

