-- ==== Sys2Proof/Machine/Selector.lean ====
section
/-! DEFINITION. Selector.lean: the meanings of format SEL, the parts of RX_REQUEST (40_request_decode.md R53 to R56).
Each is the effect of one selector position; RX_REQUEST runs the same effects (`decodeSelectors`). -/

namespace Sys2Proof.Machine

/-- SEL_REQ (R53): `sel[i] <- 1`. -/
def execSelReq (i : Slot) (s : State) : Result := .next (requestSlot i s)

/-- SEL_SKIP (R54): `sel[i] <- 0`, whatever the byte. -/
def execSelSkip (i : Slot) (_b : Byte) (s : State) : Result := .next (skipSlot i s)

/-- SEL_ABSENT (R55): `sel[i] <- 0`. -/
def execSelAbsent (i : Slot) (s : State) : Result := .next (absentSlot i s)

/-- SEL_IGNORED (R56): nothing. -/
def execSelIgnored (_i : Nat) (_b : Byte) (s : State) : Result := .next (ignoreByte s)

end Sys2Proof.Machine
end

