-- ==== Sys2Proof/Machine/Transmit.lean ====
section
/-! DEFINITION. Transmit.lean: the dispatcher (42_frame_dispatch.md R78 to R80). It reads `buf` and writes only `st`. -/

namespace Sys2Proof.Machine

/-- NO_F2's effect (R80): the cycle ends without a second send. -/
def endCycle (s : State) : State := s.goto .idle

/-- What follows the acceptance of F1 (R78): the frame is sent; then TX2 or NO_F2. -/
def afterF1 (s : State) : State :=
  if secondFrame s.buf then (s.emit (.sent (frame1 s.buf))).goto .tx2
  else endCycle (s.emit (.sent (frame1 s.buf)))

/-- What follows the acceptance of F2 (R79). -/
def afterF2 (s : State) : State := (s.emit (.sent (frame2 s.buf))).goto .idle

/-- TX_F1 (R78): hold until the transport accepts F1. -/
def execTxF1 (s : State) : Result :=
  if s.st = .tx1 then awaitAccept afterF1 s else .refused .outOfSequence

/-- TX_F2 (R79): hold until the transport accepts F2. -/
def execTxF2 (s : State) : Result :=
  if s.st = .tx2 then awaitAccept afterF2 s else .refused .outOfSequence

/-- NO_F2 (R80), the part of R78 that runs when F1 has been accepted and `buf[8] = 0x00`: `st <- IDLE`. -/
def execNoF2 (s : State) : Result :=
  if s.st = .tx1 ∧ secondFrame s.buf = false then .next (endCycle s) else .refused .outOfSequence

end Sys2Proof.Machine
end

