-- ==== Sys2Proof/Machine/Dispatch.lean ====
section
/-! DEFINITION. Dispatch.lean: one arm per operation, each one direct call of its meaning. -/

namespace Sys2Proof.Machine

def exec (i : Instr) (s : State) : Host.Outcome State Fault Refusal :=
  match i with
  | .pollNone => Sys2Proof.Machine.execPollNone s
  | .rxDiscard id data => Sys2Proof.Machine.execRxDiscard id data s
  | .rxRequest data => Sys2Proof.Machine.execRxRequest data s
  | .selReq k => Sys2Proof.Machine.execSelReq k s
  | .selSkip k b => Sys2Proof.Machine.execSelSkip k b s
  | .selAbsent k => Sys2Proof.Machine.execSelAbsent k s
  | .selIgnored p b => Sys2Proof.Machine.execSelIgnored p b s
  | .encMethane => Sys2Proof.Machine.execEncMethane s
  | .encCo2 => Sys2Proof.Machine.execEncCo2 s
  | .encCo => Sys2Proof.Machine.execEncCo s
  | .encTemp => Sys2Proof.Machine.execEncTemp s
  | .encHum => Sys2Proof.Machine.execEncHum s
  | .encPres => Sys2Proof.Machine.execEncPres s
  | .fillMethane => Sys2Proof.Machine.execFillMethane s
  | .fillCo2 => Sys2Proof.Machine.execFillCo2 s
  | .fillCo => Sys2Proof.Machine.execFillCo s
  | .fillTemp => Sys2Proof.Machine.execFillTemp s
  | .fillHum => Sys2Proof.Machine.execFillHum s
  | .fillPres => Sys2Proof.Machine.execFillPres s
  | .txF1 => Sys2Proof.Machine.execTxF1 s
  | .txF2 => Sys2Proof.Machine.execTxF2 s
  | .noF2 => Sys2Proof.Machine.execNoF2 s

end Sys2Proof.Machine
end

