-- ==== Sys2Proof/WellFormed.lean ====
section
/-! DEFINITION. WellFormed.lean: which operations the formats of 30_encoding.md can spell. -/

namespace Sys2Proof

/-- An operation the spec has. A frame's length is 0 to 8 (R38). A discarded frame's identifier is not
`REQ_ID` (R39). A skipped selector byte is not the sentinel (R41). An ignored position is 6 or 7 (R41). -/
def Instr.wf : Instr → Bool
  | .pollNone => true
  | .rxDiscard id data => id != Config.reqId && data.length ≤ Config.rxMaxLen
  | .rxRequest data => data.length ≤ Config.rxMaxLen
  | .selReq _ => true
  | .selSkip _ b => b != Config.sentinel
  | .selAbsent _ => true
  | .selIgnored i _ => Config.nSlots ≤ i && i < Config.rxMaxLen
  | .encMethane => true
  | .encCo2 => true
  | .encCo => true
  | .encTemp => true
  | .encHum => true
  | .encPres => true
  | .fillMethane => true
  | .fillCo2 => true
  | .fillCo => true
  | .fillTemp => true
  | .fillHum => true
  | .fillPres => true
  | .txF1 => true
  | .txF2 => true
  | .noF2 => true

end Sys2Proof
end

