-- ==== Sys2Proof/Decode.lean ====
section
/-! DEFINITION. Decode.lean: the decoders of the four formats of 30_encoding.md, total on any bytes and rejecting
by name, and then the encoder of well-formed operations.

The spec gives each format's fields and no byte container (the core has no instruction memory), so the
containers are the model's (DESIGN CHOICE, log 11), with bit 0 the least significant bit of the first byte:
* RXF: bits 10..0 the identifier, bits 14..11 the length, bit 15 zero, then the payload bytes. No bytes at
  all is the poll's answer `none`.
* SEL: bits 7..0 the selector byte, bits 10..8 the position i, bit 11 set when the frame carries no byte
  there (i >= len), bits 15..12 zero.
* SLOTOP: bits 3..0 the code (k << 1) | s, bits 7..4 zero.
* TXF: bits 10..0 the identifier, bits 15..11 zero. No bytes at all is "no frame" (NO_F2). -/

namespace Sys2Proof

/-- The slot of an index, if there is one. -/
def Slot.ofIndex? (n : Nat) : Option Slot := Slot.all[n]?

/-- ENC_<slot>: the operation of code `(k << 1) | 1` (30_encoding.md R42). -/
def Instr.encOf : Slot → Instr
  | .methane => .encMethane
  | .co2 => .encCo2
  | .co => .encCo
  | .temperature => .encTemp
  | .humidity => .encHum
  | .pressure => .encPres

/-- FILL_<slot>: the operation of code `k << 1` (30_encoding.md R42). -/
def Instr.fillOf : Slot → Instr
  | .methane => .fillMethane
  | .co2 => .fillCo2
  | .co => .fillCo
  | .temperature => .fillTemp
  | .humidity => .fillHum
  | .pressure => .fillPres

/-- 30_encoding.md R39: the class of a frame is decided by all 11 bits of its identifier and nothing else. -/
def classifyFrame (id : CanId) (data : List Byte) : Instr :=
  if id = Config.reqId then .rxRequest data else .rxDiscard id data

/-- The identifier in the head of an RXF word. -/
def headId (b0 b1 : Byte) : CanId := b1.extractLsb' 0 3 ++ b0

/-- The length in the head of an RXF word. -/
def headLen (b1 : Byte) : Nat := (b1.extractLsb' 3 4).toNat

/-- Format RXF (30_encoding.md R38, R39). -/
def decodeRxf : List Byte → Except DecodeError (Instr × List Byte)
  | [] => .ok (.pollNone, [])
  | [_] => .error .headTruncated
  | b0 :: b1 :: rest =>
    if b1.getLsbD 7 then .error .reservedHeadBit
    else if Config.rxMaxLen < headLen b1 then .error .lengthOver8
    else if rest.length < headLen b1 then .error .payloadTruncated
    else .ok (classifyFrame (headId b0 b1) (rest.take (headLen b1)), rest.drop (headLen b1))

/-- The class of a selector position (30_encoding.md R41), from the position, whether the frame carries it,
and its byte. -/
def classifySelector (i : Nat) (absent : Bool) (b : Byte) : Except DecodeError Instr :=
  match Slot.ofIndex? i, absent with
  | some k, false => .ok (if b = Config.sentinel then .selReq k else .selSkip k b)
  | some k, true => if b = 0 then .ok (.selAbsent k) else .error .absentWithByte
  | none, false => .ok (.selIgnored i b)
  | none, true => .error .noSelectorClass

/-- Format SEL (30_encoding.md R40, R41). -/
def decodeSel : List Byte → Except DecodeError (Instr × List Byte)
  | [] => .error .selectorTruncated
  | [_] => .error .selectorTruncated
  | b :: c :: rest =>
    if c.extractLsb' 4 4 = 0 then
      match classifySelector (c.extractLsb' 0 3).toNat (c.getLsbD 3) b with
      | .ok i => .ok (i, rest)
      | .error e => .error e
    else .error .reservedSelectorBits

/-- Format SLOTOP (30_encoding.md R42). -/
def decodeSlotop : List Byte → Except DecodeError (Instr × List Byte)
  | [] => .error .slotopTruncated
  | b :: rest =>
    if b.extractLsb' 4 4 = 0 then
      match Slot.ofIndex? (b.extractLsb' 1 3).toNat with
      | some k => .ok (if b.getLsbD 0 then .encOf k else .fillOf k, rest)
      | none => .error .slotopNeverFormed
    else .error .reservedSlotopBits

/-- Format TXF (30_encoding.md R43, R44). -/
def decodeTxf : List Byte → Except DecodeError (Instr × List Byte)
  | [] => .ok (.noF2, [])
  | [_] => .error .txTruncated
  | b0 :: b1 :: rest =>
    if b1 ++ b0 = Config.rsp1Id.setWidth 16 then .ok (.txF1, rest)
    else if b1 ++ b0 = Config.rsp2Id.setWidth 16 then .ok (.txF2, rest)
    else .error .notAResponse

/-- The operation at the head of the bytes, read in the format of the place they come from, with the bytes
that are left. -/
def decode : Format → List Byte → Except DecodeError (Instr × List Byte)
  | .rxf => decodeRxf
  | .sel => decodeSel
  | .slotop => decodeSlotop
  | .txf => decodeTxf

/-- The format an operation is encoded in (opcode_table.json, column format). -/
def Instr.format : Instr → Format
  | .pollNone => .rxf
  | .rxDiscard _ _ => .rxf
  | .rxRequest _ => .rxf
  | .selReq _ => .sel
  | .selSkip _ _ => .sel
  | .selAbsent _ => .sel
  | .selIgnored _ _ => .sel
  | .encMethane => .slotop
  | .encCo2 => .slotop
  | .encCo => .slotop
  | .encTemp => .slotop
  | .encHum => .slotop
  | .encPres => .slotop
  | .fillMethane => .slotop
  | .fillCo2 => .slotop
  | .fillCo => .slotop
  | .fillTemp => .slotop
  | .fillHum => .slotop
  | .fillPres => .slotop
  | .txF1 => .txf
  | .txF2 => .txf
  | .noF2 => .txf

/-- The two head bytes and the payload of an inbound frame. -/
def encodeFrame (id : CanId) (data : List Byte) : List Byte :=
  id.extractLsb' 0 8 :: (0#1 ++ BitVec.ofNat 4 data.length ++ id.extractLsb' 8 3) :: data

/-- The two bytes of a selector position. -/
def encodeSelector (i : Nat) (absent : Bool) (b : Byte) : List Byte :=
  [b, 0#4 ++ BitVec.ofBool absent ++ BitVec.ofNat 3 i]

/-- The byte of the SLOTOP code `(k << 1) | s` (30_encoding.md R42). -/
def encodeSlotop (k : Slot) (s : Bool) : List Byte :=
  [0#4 ++ BitVec.ofNat 3 k.index ++ BitVec.ofBool s]

/-- The two bytes of an outbound identifier. -/
def encodeTxId (id : CanId) : List Byte := [id.extractLsb' 0 8, 0#5 ++ id.extractLsb' 8 3]

/-- The bytes of an operation, in its own format. -/
def Instr.encode : Instr → List Byte
  | .pollNone => []
  | .rxDiscard id data => encodeFrame id data
  | .rxRequest data => encodeFrame Config.reqId data
  | .selReq i => encodeSelector i.index false Config.sentinel
  | .selSkip i b => encodeSelector i.index false b
  | .selAbsent i => encodeSelector i.index true 0
  | .selIgnored i b => encodeSelector i false b
  | .encMethane => encodeSlotop .methane true
  | .encCo2 => encodeSlotop .co2 true
  | .encCo => encodeSlotop .co true
  | .encTemp => encodeSlotop .temperature true
  | .encHum => encodeSlotop .humidity true
  | .encPres => encodeSlotop .pressure true
  | .fillMethane => encodeSlotop .methane false
  | .fillCo2 => encodeSlotop .co2 false
  | .fillCo => encodeSlotop .co false
  | .fillTemp => encodeSlotop .temperature false
  | .fillHum => encodeSlotop .humidity false
  | .fillPres => encodeSlotop .pressure false
  | .txF1 => encodeTxId Config.rsp1Id
  | .txF2 => encodeTxId Config.rsp2Id
  | .noF2 => []

/-- The `n` bytes of a number, the least significant first. -/
def bytesOfNat : Nat → Nat → List Byte
  | 0, _ => []
  | n + 1, w => BitVec.ofNat 8 w :: bytesOfNat n (w / 256)

/-- The first decoder of the list that accepts. -/
def firstAccepted (bytes : List Byte) : List Format → Option Instr
  | [] => none
  | f :: fs =>
    match decode f bytes with
    | .ok (i, _) => some i
    | .error _ => firstAccepted bytes fs

/-- The operation the decoder reads from a row's bits, numbered as opcode_table.json numbers them. The table's
rows of one length are in two formats, and a word does not say in which it is, so both are tried: SLOTOP
before SEL on a byte, TXF before RXF on two (DESIGN CHOICE, log 12). The bytes above `nbits` are zero, up to
the longest operation (two head bytes and eight of payload). -/
def decodeTableWord (nbits w : Nat) : Option Instr :=
  if nbits = 0 then firstAccepted [] [.rxf]
  else
    let n := (nbits + 7) / 8
    let bytes := bytesOfNat n (w % 2 ^ nbits) ++ List.replicate (10 - n) 0
    firstAccepted bytes (if n = 1 then [.slotop, .sel] else [.txf, .rxf])

end Sys2Proof
end

