-- ==== Sys2Proof/Machine/Fetch.lean ====
section
/-! DEFINITION. Fetch.lean: where the core's next operation comes from. The core fetches no instructions
(20_memory.md R37): in IDLE the poll's answer is the operation's word, in ASM(k) and WAIT(k) the multiplexer's code
is, in TX1 and TX2 the offered frame's identifier is (10_state.md R16, 30_encoding.md R38 to R44). -/

namespace Sys2Proof.Machine

/-- The word a poll answers (10_state.md R11), or the refusal of what is no answer to a poll. A poll with no event
left is answered `none` (log 2). -/
def fetchPoll : List PortEvent → Except Refusal (Format × List Byte)
  | [] => .ok (.rxf, [])
  | .rxNone :: _ => .ok (.rxf, [])
  | .rx f :: _ =>
    match portFrame f with
    | .ok (id, data) => .ok (.rxf, encodeFrame id data)
    | .error r => .error r
  | .sens _ _ :: _ => .error .answerWithoutRead
  | .txAccept :: _ => .error .acceptWithoutOffer
  | .silent :: _ => .error .pollUnanswered
  | .reset _ :: _ => .ok (.rxf, [])

/-- The word of the next operation and its format. In ASM(k) it is the code `(k << 1) | sel[k]`
(41_field_encode.md R63); in WAIT(k) the encode operation goes on. -/
def fetch (s : State) : Except Refusal (Format × List Byte) :=
  match s.st with
  | .idle => fetchPoll s.stim
  | .asm k => .ok (.slotop, encodeSlotop k (s.selected k))
  | .wait k => .ok (.slotop, encodeSlotop k true)
  | .tx1 => .ok (.txf, encodeTxId Config.rsp1Id)
  | .tx2 => .ok (.txf, encodeTxId Config.rsp2Id)

/-- `s` in IDLE, about to poll, with `e` as the poll's answer. -/
def placePoll (e : PortEvent) (s : State) : State := { s with st := .idle, stim := e :: s.stim }

/-- `s` about to receive a request frame with this payload. -/
def placeRequest (data : List Byte) (s : State) : State :=
  placePoll (.rx { id := Config.reqId.toNat, len := data.length, data := data }) s

/-- `s` at the start of slot `k`'s step (41_field_encode.md R63: `st = ASM(k)`, `cur = OFF[k]`), `sel[k]` as given. -/
def placeSlot (k : Slot) (sel : Bool) (s : State) : State :=
  { s.setSel k sel with st := .asm k, cur := k.offset, stim := .silent :: s.stim }

/-- `s` with a frame offered in `st` that the transport accepts. -/
def placeOffer (st : SeqState) (s : State) : State := { s with st := st, stim := .txAccept :: s.stim }

/-- `s` about to run an operation. The four SEL operations and NO_F2 are parts of a step (40_request_decode.md R52,
42_frame_dispatch.md R80): `s` is about to run the RX_REQUEST or TX_F1 that they are part of (log 13). -/
def placeInstr : Instr → State → State
  | .pollNone, s => placePoll .rxNone s
  | .rxDiscard id data, s => placePoll (.rx { id := id.toNat, len := data.length, data := data }) s
  | .rxRequest data, s => placeRequest data s
  | .selReq k, s => placeRequest (List.replicate k.index 0 ++ [Config.sentinel]) s
  | .selSkip k b, s => placeRequest (List.replicate k.index 0 ++ [b]) s
  | .selAbsent k, s => placeRequest (List.replicate k.index 0) s
  | .selIgnored i b, s => placeRequest (List.replicate i 0 ++ [b]) s
  | .encMethane, s => placeSlot .methane true s
  | .encCo2, s => placeSlot .co2 true s
  | .encCo, s => placeSlot .co true s
  | .encTemp, s => placeSlot .temperature true s
  | .encHum, s => placeSlot .humidity true s
  | .encPres, s => placeSlot .pressure true s
  | .fillMethane, s => placeSlot .methane false s
  | .fillCo2, s => placeSlot .co2 false s
  | .fillCo, s => placeSlot .co false s
  | .fillTemp, s => placeSlot .temperature false s
  | .fillHum, s => placeSlot .humidity false s
  | .fillPres, s => placeSlot .pressure false s
  | .txF1, s => placeOffer .tx1 s
  | .txF2, s => placeOffer .tx2 s
  | .noF2, s => placeOffer .tx1 { s with buf := s.buf.write Config.f1Len 0x00 }

end Sys2Proof.Machine
end

