-- ==== Sys2Proof/Machine/Step.lean ====
section
/-! DEFINITION. Step.lean: one step of the core (60_exceptions.md R82). A reset that comes now comes first
(70_reset_and_hazards.md R98); a core that has recorded a fault has no step (41_field_encode.md R77); else the
operation the sequencer reaches runs. A hold is a step that leaves the core as it is (log 19). -/

namespace Sys2Proof.Machine

/-- One step. -/
def step (s : State) : Host.Outcome State Fault Refusal :=
  match resetNow s with
  | some s' => .next s'
  | none =>
    match halted s with
    | some r => .fault r
    | none =>
      match fetch s with
      | .error r => .refused r
      | .ok (fmt, bytes) =>
        match decode fmt bytes with
        | .error e => .refused (.undecodable e)
        | .ok (i, _) => exec i s

/-- `s` about to run the operation of a table word (log 14); `s` itself where the decoder refuses the word. -/
def State.withFetchWord (s : State) (nbits w : Nat) : State :=
  match decodeTableWord nbits w with
  | some i => placeInstr i s
  | none => s

end Sys2Proof.Machine
end

