-- ==== Sys2Proof/Safety.lean ====
section
/-! DEFINITION. Safety.lean: the words the claims use: the layout invariant, the transition table, what a request cycle
is asked and what it answers, and when two runs look the same from outside. -/

namespace Sys2Proof.Machine

/-! ### Slots and numbers -/

/-- Slot `k` is requested by a payload (40_request_decode.md R57): its position is carried, is one of the six, and holds
`0x11`. -/
def requested (data : List Byte) (k : Slot) : Bool :=
  k.index < min data.length 6 && data[k.index]? == some 0x11

/-- The six selection bits of a payload, bit k for slot k (40_request_decode.md R57). -/
def selectionOf (data : List Byte) : BitVec 6 :=
  (BitVec.ofBoolListLE (Slot.all.map (requested data))).setWidth 6

/-- The filler byte of a slot (20_memory.md R34). -/
def fillerOf : Slot → Byte
  | .pressure => Config.presFill
  | .methane => Config.fill
  | .co2 => Config.fill
  | .co => Config.fill
  | .temperature => Config.fill
  | .humidity => Config.fill

/-- The slot owns the index (41_field_encode.md R76). -/
def ownsIndex (k : Slot) (a : Nat) : Prop := k.offset ≤ a ∧ a < k.offset + k.width

/-- `z` is the integer part of `x` toward zero (00_scope.md section 4). -/
def IsTrunc (x : Rat) (z : Int) : Prop :=
  (0 ≤ x → (z : Rat) ≤ x ∧ x < (z : Rat) + 1) ∧ (x < 0 → x ≤ (z : Rat) ∧ (z : Rat) - 1 < x)

/-- A frame of the RX port's type (10_state.md R11): a standard data frame, an 11-bit identifier, at most 8 bytes,
all of them delivered. -/
def RxFrame.inType (f : RxFrame) : Prop :=
  f.extended = false ∧ f.remote = false ∧ f.id ≤ 0x7FF ∧ f.len ≤ 8 ∧ f.len ≤ f.data.length

/-- An answer of the slot's type (10_state.md R12), in the number format for the readings of type `F`. -/
def answerInType (f : FloatFormat) : Slot → SensValue → Prop
  | .methane, .wide n => 0 ≤ n ∧ n ≤ 65535
  | .co2, .wide n => 0 ≤ n ∧ n ≤ 65535
  | .co, .wide n => 0 ≤ n ∧ n ≤ 65535
  | .temperature, .pair a c => readingInFormat f a = true ∧ readingInFormat f c = true
  | .humidity, .pair a c => readingInFormat f a = true ∧ readingInFormat f c = true
  | .pressure, .single p => readingInFormat f p = true
  | _, _ => False

/-- An answer of the slot's kind, whatever its value: an integer for slots 0 to 2, a pair for slots 3 and 4, one reading for
slot 5 (10_state.md R12). -/
def answerOfKind : Slot → SensValue → Bool
  | .methane, .wide _ => true
  | .co2, .wide _ => true
  | .co, .wide _ => true
  | .temperature, .pair _ _ => true
  | .humidity, .pair _ _ => true
  | .pressure, .single _ => true
  | _, _ => false

/-- No agent acts in the step: its line is `silent`, or no line is left (log 2). -/
def quiet : List PortEvent → Prop
  | [] => True
  | .silent :: _ => True
  | _ => False

/-! ### The layout invariant -/

/-- The cursor in each sequencer state (10_state.md R20), the reading outstanding only for a requested slot, and F2 offered
only for a non-zero byte 8. -/
def State.LayoutOk (s : State) : Prop :=
  match s.st with
  | .idle => s.cur ≤ 9
  | .asm k => s.cur = k.offset
  | .wait k => s.cur = k.offset ∧ s.selected k = true
  | .tx1 => s.cur = 9
  | .tx2 => s.cur = 9 ∧ s.buf.read 8 ≠ 0

/-- How many slots the cycle has assembled. -/
def assembled : SeqState → Nat
  | .idle => 0
  | .asm k => k.index
  | .wait k => k.index
  | .tx1 => 6
  | .tx2 => 6

/-- The invariant of the core: the buffer is in canonical form, no fault is recorded, the cursor is where the layout puts
it, and each assembled slot that is not requested holds its filler (20_memory.md R34, 41_field_encode.md R76). -/
structure State.Inv (s : State) : Prop where
  canonical : s.buf.wf = true
  noFault : s.flt = []
  layout : s.LayoutOk
  fillers : ∀ k, k.index < assembled s.st → s.selected k = false → ∀ a, ownsIndex k a → s.buf.read a = fillerOf k

/-! ### The transition table -/

/-- The transitions of `st` (10_state.md R16), with the holds of 60_exceptions.md R85: where the core goes from `s` when it
takes a step that is no reset. -/
def tableNext (s : State) : SeqState :=
  match s.st, s.stim with
  | .idle, .rx f :: _ => if f.id = 0x1A4 then .asm .methane else .idle
  | .idle, _ => .idle
  | .asm k, _ => if s.selected k then .wait k else nextOf k
  | .wait k, .sens _ _ :: _ => nextOf k
  | .wait k, _ => .wait k
  | .tx1, .txAccept :: _ => if s.buf.read 8 ≠ 0 then .tx2 else .idle
  | .tx1, _ => .tx1
  | .tx2, .txAccept :: _ => .idle
  | .tx2, _ => .tx2

/-! ### A request cycle -/

/-- The bytes of slot `k` for an answer, with the free byte to use for a non-finite value (20_memory.md R34). -/
def answerBytes (p : Params) (drawn : Byte) : SensValue → List Byte
  | .wide n => [BitVec.ofInt 8 (n / 256), BitVec.ofInt 8 n]
  | .pair a c => [t8 drawn (pMean p.mean a c)]
  | .single x => [t8 drawn (pKpa p.kpa x)]

/-- How many free bytes an answer takes. -/
def answerDraws (p : Params) : SensValue → Nat
  | .wide _ => 0
  | .pair a c => t8Draws (pMean p.mean a c)
  | .single x => t8Draws (pKpa p.kpa x)

/-- The bytes of the slots from a list on, requested or not, from the `n`-th free byte on. -/
def responseFrom (p : Params) (data : List Byte) (answers : Slot → SensValue) (n : Nat) : List Slot → List Byte
  | [] => []
  | k :: ks =>
    if requested data k then
      answerBytes p (Config.nonFiniteByte n) (answers k)
        ++ responseFrom p data answers (n + answerDraws p (answers k)) ks
    else List.replicate k.width (fillerOf k) ++ responseFrom p data answers n ks

/-- The nine bytes a cycle puts into the OutputBuffer (20_memory.md R34). -/
def responseBytes (p : Params) (data : List Byte) (answers : Slot → SensValue) (n : Nat) : List Byte :=
  responseFrom p data answers n Slot.all

/-- The requested slots, in slot order. -/
def requestedSlots (data : List Byte) : List Slot := Slot.all.filter (requested data)

/-- The request frame with a payload (30_encoding.md R48, line RX). -/
def requestFrame (data : List Byte) : RxFrame where
  id := 0x1A4
  len := data.length
  data := data

/-- `REQ` with a list of slots (30_encoding.md R49). -/
def requestOf (slots : List Slot) : RxFrame :=
  requestFrame (Slot.all.map fun k => if k ∈ slots then 0x11 else 0x00)

/-- The frames a cycle sends for its nine bytes (42_frame_dispatch.md R78 to R80). -/
def responseFrames (bytes : List Byte) : List TxFrame :=
  ⟨0x1A5, 8, bytes.take 8⟩ :: if bytes.getD 8 0 ≠ 0 then [⟨0x1A6, 1, [bytes.getD 8 0]⟩] else []

/-- The lines of one whole cycle in the notation of 30_encoding.md R48: the request, the answer of each requested slot, and an
acceptance for each frame. -/
def cycleLines (p : Params) (data : List Byte) (answers : Slot → SensValue) (n : Nat) : List PortEvent :=
  .rx (requestFrame data) :: (requestedSlots data).map (fun k => PortEvent.sens k (answers k))
    ++ (responseFrames (responseBytes p data answers n)).map fun _ => PortEvent.txAccept

/-- The events of a slot's steps: a silent step in ASM(k), the fill or the issue, and the answer if one is due. -/
def slotEvents (data : List Byte) (answers : Slot → SensValue) (k : Slot) : List PortEvent :=
  .silent :: if requested data k then [.sens k (answers k)] else []

/-- The events of one whole cycle, one for each step: the request, the slots' steps, and an acceptance for each frame. -/
def cycleEvents (p : Params) (data : List Byte) (answers : Slot → SensValue) (n : Nat) : List PortEvent :=
  .rx (requestFrame data) :: Slot.all.flatMap (slotEvents data answers)
    ++ (responseFrames (responseBytes p data answers n)).map fun _ => PortEvent.txAccept

/-- The effects of one whole cycle, in the order of 20_memory.md R35. -/
def cycleEffects (p : Params) (data : List Byte) (answers : Slot → SensValue) (n : Nat) : List Effect :=
  .polled data :: (requestedSlots data).map Effect.read
    ++ (responseFrames (responseBytes p data answers n)).map Effect.sent

/-! ### Programs -/

/-- The silent steps in ASM from a list of slots on, up to the first read that is issued. -/
def assemblySteps (sel : BitVec 6) : List Slot → List PortEvent
  | [] => []
  | k :: ks => .silent :: if sel.getLsbD k.index then [] else assemblySteps sel ks

/-- The events of a program of 30_encoding.md R48, whose lines leave out the steps in which no port is used: after a request
and after an answer the silent steps up to the next wait or offer are put in (log 2). `sel` is the selection of the
cycle the program is in. -/
def programEvents (sel : BitVec 6) : List PortEvent → List PortEvent
  | [] => []
  | .rx f :: rest =>
    if f.id = 0x1A4 then
      .rx f :: assemblySteps (selectionOf (f.data.take f.len)) Slot.all
        ++ programEvents (selectionOf (f.data.take f.len)) rest
    else .rx f :: programEvents sel rest
  | .sens k v :: rest => .sens k v :: assemblySteps sel (Slot.all.drop (k.index + 1)) ++ programEvents sel rest
  | e :: rest => e :: programEvents sel rest

/-! ### What can be seen from outside -/

/-- What a run shows (70_reset_and_hazards.md R102): the effects so far, the frame offered, the faults recorded, or why it
stopped. -/
def visible : Result → Host.Outcome (List Effect × Option TxFrame × List Fault) Fault Refusal
  | .next s => .next (s.log, s.outstandingOffer, s.flt)
  | .fault r => .fault r
  | .refused r => .refused r

/-- Two states that agree on everything but what the current cycle has not written (10_state.md R26): in IDLE nothing of
`sel`, `buf` and `cur` counts, and in a cycle only the bytes below the cursor do. -/
structure SameCycle (s t : State) : Prop where
  params : s.params = t.params
  st : s.st = t.st
  stim : s.stim = t.stim
  log : s.log = t.log
  flt : s.flt = t.flt
  draws : s.draws = t.draws
  inCycle : s.st ≠ .idle → s.sel = t.sel ∧ s.cur = t.cur ∧ ∀ a, a < s.cur → s.buf.read a = t.buf.read a

/-- Two outcomes of a step that look the same: next states that agree, or the same stop. -/
def SameOutcome : Result → Result → Prop
  | .next s, .next t => SameCycle s t
  | .fault r, .fault r' => r = r'
  | .refused r, .refused r' => r = r'
  | _, _ => False

end Sys2Proof.Machine
end

