-- ==== Sys2Proof/Certificates/Slice0/Obligations.lean ====
section
/-! DEFINITION. Obligations.lean: the statements for the provers. Each docstring names the rules of spec/ it states.
Free values (`Config.nonFiniteByte`, `Config.meanNonFinite`, `Config.kpaNonFinite`, `Config.formatHas`,
`Config.configuredMean`, `Config.configuredKpa`) have no body: a statement that names one holds whatever its value is. A
statement holds for every choice of the configuration fields `s.params` that it does not name. -/

open Sys2Proof Sys2Proof.Machine

/-! ### Reset and the step -/

/-- 10_state.md R27, the rows whose value the spec gives: IDLE, no fault, no outstanding read, no outstanding offer. -/
def Obligations.ResetIsIdleWithNothingOutstanding : Prop :=
  State.reset.st = .idle ∧ State.reset.flt = [] ∧ State.reset.outstandingRead = none ∧
    State.reset.outstandingOffer = none

/-- 70_reset_and_hazards.md R98, R99: a reset in any state abandons the cycle. The unspecified registers are whatever the
event's draw says (log 5). The effects already logged stay. -/
def Obligations.ResetEventAbandonsCycle : Prop :=
  ∀ (s : State) (d : ResetDraw) (rest : List PortEvent), s.stim = .reset d :: rest →
    ∃ t, step s = .next t ∧ t.st = .idle ∧ t.flt = [] ∧ t.outstandingRead = none ∧ t.outstandingOffer = none ∧
      t.sel = d.sel ∧ (∀ i : Fin 9, t.buf.read i = d.buf[i]) ∧ t.buf.wf = true ∧ t.cur = d.cur ∧ t.stim = rest ∧
      t.log = s.log ++ [.reset] ∧ t.draws = s.draws

/-- A step runs the operation that decoding gives: the step adds nothing around `exec` but the two guards (no reset comes,
no fault is recorded). -/
def Obligations.StepRunsDecodedOperation : Prop :=
  ∀ (s : State) (fmt : Format) (bytes rest : List Byte) (i : Instr), (∀ d r, s.stim ≠ .reset d :: r) → s.flt = [] →
    fetch s = .ok (fmt, bytes) → decode fmt bytes = .ok (i, rest) → i.wf = true → step s = exec i s

/-- 30_encoding.md R39: the identifier alone, all 11 bits of it, decides which operation a polled frame is, and a poll
that finds no frame is POLL_NONE. Bytes past the declared length are not read (40_request_decode.md R55). That a poll with
no event left finds no frame is the model's choice (log 2). -/
def Obligations.FrameClassifiedByIdentifierAlone : Prop :=
  (∀ (s : State) (f : RxFrame) (rest : List PortEvent), s.st = .idle → s.flt = [] → s.stim = .rx f :: rest → f.inType →
    step s = if f.id = 0x1A4 then exec (.rxRequest (f.data.take f.len)) s
      else exec (.rxDiscard (BitVec.ofNat 11 f.id) (f.data.take f.len)) s) ∧
  (∀ s : State, s.st = .idle → s.flt = [] → (s.stim = [] ∨ ∃ rest, s.stim = .rxNone :: rest) →
    step s = exec .pollNone s)

/-- 30_encoding.md R42: the multiplexer's code is `(k << 1) | sel[k]`, the twelve codes are the twelve operations, and the
codes 0xC to 0xF are no operation's and are never formed. R42 gives the code's four bits; the byte they stand
in, and the decoder's rejection by name of the codes never formed, are the model's choice (log 11). -/
def Obligations.MultiplexerFormsSlotCode : Prop :=
  (∀ (s : State) (k : Slot), s.st = .asm k →
    fetch s = .ok (.slotop, [BitVec.ofNat 8 (2 * k.index + (s.selected k).toNat)])) ∧
  (∀ k : Slot, decode .slotop [BitVec.ofNat 8 (2 * k.index + 1)] = .ok (.encOf k, []) ∧
    decode .slotop [BitVec.ofNat 8 (2 * k.index)] = .ok (.fillOf k, [])) ∧
  (∀ c : Nat, 0xC ≤ c → c ≤ 0xF → decode .slotop [BitVec.ofNat 8 c] = .error .slotopNeverFormed) ∧
  (∀ (s : State) (c : Byte), fetch s = .ok (.slotop, [c]) → c.toNat < 0xC)

/-- 41_field_encode.md R63: in ASM(k) the step is the slot's encode operation when `sel[k] = 1` and its fill operation when
`sel[k] = 0`; in WAIT(k) the encode operation goes on; in TX1 and TX2 the dispatcher runs (42_frame_dispatch.md). -/
def Obligations.SequencerReachesItsOperation : Prop :=
  ∀ s : State, (∀ d r, s.stim ≠ .reset d :: r) → s.flt = [] →
    (∀ k, s.st = .asm k → s.selected k = true → step s = exec (.encOf k) s) ∧
    (∀ k, s.st = .asm k → s.selected k = false → step s = exec (.fillOf k) s) ∧
    (∀ k, s.st = .wait k → step s = exec (.encOf k) s) ∧
    (s.st = .tx1 → step s = exec .txF1 s) ∧ (s.st = .tx2 → step s = exec .txF2 s)

/-! ### The request decoder -/

/-- 40_request_decode.md R50: a poll that finds no frame leaves the core as it is; the core polls again at its next step.
That a poll with no event left finds nothing is the model's choice (log 2). -/
def Obligations.PollNoneLeavesStateUnchanged : Prop :=
  ∀ s : State, s.st = .idle →
    (∀ rest, s.stim = .rxNone :: rest → exec .pollNone s = .next { s with stim := rest }) ∧
    (s.stim = [] → exec .pollNone s = .next s) ∧
    (∀ rest, s.flt = [] → s.stim = .rxNone :: rest → step s = .next { s with stim := rest })

/-- 40_request_decode.md R51: a frame with any other identifier is consumed and dropped; nothing of the core changes and
nothing is sent, whatever its length and data. -/
def Obligations.OtherFramesAreDropped : Prop :=
  (∀ (s : State) (id : CanId) (data : List Byte) (f : RxFrame) (rest : List PortEvent), s.st = .idle → s.stim = .rx f :: rest →
    exec (.rxDiscard id data) s = .next { s with stim := rest }) ∧
  (∀ (s : State) (f : RxFrame) (rest : List PortEvent), s.st = .idle → s.flt = [] → s.stim = .rx f :: rest → f.inType →
    f.id ≠ 0x1A4 → step s = .next { s with stim := rest })

/-- 40_request_decode.md R52: RX_REQUEST writes all six selection flags from the payload, `cur` and `st`, in one step, and
nothing else of the core; the payload past position 5 has no effect. That the poll is recorded in `log` is the model's
choice (log 18). -/
def Obligations.RequestStepWritesSelCurAndSt : Prop :=
  ∀ (s : State) (data : List Byte) (f : RxFrame) (rest : List PortEvent), s.st = .idle → s.stim = .rx f :: rest →
    exec (.rxRequest data) s = .next { s with
      sel := selectionOf data, cur := 0, st := .asm .methane, stim := rest, log := s.log ++ [.polled data] }

/-- 40_request_decode.md R53 to R56: SEL_REQ sets its slot's flag, SEL_SKIP and SEL_ABSENT clear it, SEL_IGNORED does nothing;
the other five flags and all the rest of the state stay. -/
def Obligations.SelectorOperationsSetOneFlag : Prop :=
  ∀ s : State,
    (∀ k, ∃ r, exec (.selReq k) s = .next { s with sel := r } ∧
      ∀ j : Slot, r.getLsbD j.index = if j = k then true else s.selected j) ∧
    (∀ k b, ∃ r, exec (.selSkip k b) s = .next { s with sel := r } ∧
      ∀ j : Slot, r.getLsbD j.index = if j = k then false else s.selected j) ∧
    (∀ k, ∃ r, exec (.selAbsent k) s = .next { s with sel := r } ∧
      ∀ j : Slot, r.getLsbD j.index = if j = k then false else s.selected j) ∧
    (∀ p b, exec (.selIgnored p b) s = .next s)

/-- 30_encoding.md R41: the class of each selector position. The two bytes of a position are the model's container (log 11). -/
def Obligations.SelectorPositionHasOneClass : Prop :=
  (∀ (k : Slot) (b : Byte), b = 0x11 → decode .sel (encodeSelector k.index false b) = .ok (.selReq k, [])) ∧
  (∀ (k : Slot) (b : Byte), b ≠ 0x11 → decode .sel (encodeSelector k.index false b) = .ok (.selSkip k b, [])) ∧
  (∀ k : Slot, decode .sel (encodeSelector k.index true 0) = .ok (.selAbsent k, [])) ∧
  (∀ (p : Nat) (b : Byte), 6 ≤ p → p < 8 → decode .sel (encodeSelector p false b) = .ok (.selIgnored p b, []))

/-- 40_request_decode.md R57: the decoded selection is a pure function of the payload's first `min(len, 6)` bytes, and the
decode writes only `sel`. The second clause is the sentence that R57 marks as its own inference, derived from R52 to R56. -/
def Obligations.SelectionIsPureFunctionOfPayload : Prop :=
  (∀ (s : State) (data : List Byte), ∃ r : BitVec 6, decodeSelectors data s = { s with sel := r } ∧
    ∀ k : Slot, r.getLsbD k.index = (decide (k.index < min data.length 6) && (data[k.index]? == some 0x11))) ∧
  (∀ (s t : State) (data data' : List Byte), min data.length 6 = min data'.length 6 →
    (∀ i, i < min data.length 6 → data[i]? = data'[i]?) → (decodeSelectors data s).sel = (decodeSelectors data' t).sel)

/-- 60_exceptions.md R84, 70_reset_and_hazards.md R110, 92_eei_decisions.md D12: what lies outside the port types is refused: a
frame out of its limits, a wide reading out of range, an answer for another slot, an answer when no read is outstanding
(in ASM(k) too), an answer of another slot's kind, and a reading that the number format does not have (the name of this
last one is the model's, log 24). -/
def Obligations.PortsRefuseOutOfTypeInputs : Prop :=
  (∀ (s : State) (f : RxFrame) (rest : List PortEvent), s.st = .idle → s.flt = [] → s.stim = .rx f :: rest →
    (8 < f.len ∨ 0x7FF < f.id ∨ f.extended = true ∨ f.remote = true) → ∃ r, step s = .refused r) ∧
  (∀ (s : State) (k : Slot) (n : Int) (rest : List PortEvent), s.st = .wait k → s.flt = [] → k.width = 2 →
    s.stim = .sens k (.wide n) :: rest → (n < 0 ∨ 65535 < n) → step s = .refused .wideReadingOutOfRange) ∧
  (∀ (s : State) (k j : Slot) (v : SensValue) (rest : List PortEvent), s.st = .wait k → s.flt = [] → j ≠ k →
    s.stim = .sens j v :: rest → step s = .refused .answerForOtherSlot) ∧
  (∀ (s : State) (j : Slot) (v : SensValue) (rest : List PortEvent),
    (s.st = .idle ∨ (∃ k, s.st = .asm k) ∨ s.st = .tx1 ∨ s.st = .tx2) →
    s.flt = [] → s.stim = .sens j v :: rest → step s = .refused .answerWithoutRead) ∧
  (∀ (s : State) (k : Slot) (v : SensValue) (rest : List PortEvent), s.st = .wait k → s.flt = [] →
    s.stim = .sens k v :: rest → answerOfKind k v = false → step s = .refused .answerOfWrongType) ∧
  (∀ (s : State) (k : Slot) (v : SensValue) (rest : List PortEvent), s.st = .wait k → s.flt = [] → k.width = 1 →
    s.stim = .sens k v :: rest → answerOfKind k v = true →
    (answerInType s.params.float k v ∧ ∃ t, step s = .next t) ∨
      (¬ answerInType s.params.float k v ∧ step s = .refused .readingOutsideFormat))

/-! ### The encoders -/

/-- 41_field_encode.md R59, 20_memory.md R29: the wide encoder gives the most significant byte first. -/
def Obligations.WideEncoderIsMsbFirst : Prop :=
  (∀ v : U16, ∃ hi lo : Byte, w16 v = [hi, lo] ∧ hi.toNat = v.toNat / 256 ∧ lo.toNat = v.toNat % 256) ∧
  w16 0 = [0x00, 0x00] ∧ w16 300 = [0x01, 0x2C] ∧ w16 0x1234 = [0x12, 0x34] ∧ w16 0x00FF = [0x00, 0xFF] ∧
  w16 65535 = [0xFF, 0xFF]

/-- 41_field_encode.md R58: the truncating encoder keeps the low 8 bits of the integer part toward zero of every finite
reading, of any sign and magnitude, and gives the drawn byte for a non-finite one. -/
def Obligations.TruncatingEncoderWrapsTowardZero : Prop :=
  (∀ (d : Byte) (x : Rat) (z : Int), IsTrunc x z → ((t8 d (.finite x)).toNat : Int) = z % 256) ∧
  (∀ x : Rat, ∃ z : Int, IsTrunc x z) ∧
  (∀ (d : Byte) (n : NonFinite), t8 d (.nonFinite n) = d)

/-- 41_field_encode.md R64 to R66 (with R59 and 20_memory.md R29): the completion of ENC_METHANE, ENC_CO2 and ENC_CO. It
completes for every reading of type `u16`, in every state that holds in WAIT(k) with the cursor at the slot. -/
def Obligations.WideCompletionWritesTwoBytes : Prop :=
  ∀ (s : State) (k : Slot) (n : Nat) (rest : List PortEvent), k = .methane ∨ k = .co2 ∨ k = .co → s.buf.wf = true →
    s.st = .wait k → s.cur = k.offset → n ≤ 65535 → s.stim = .sens k (.wide n) :: rest →
    ∃ m : Memory, exec (.encOf k) s = .next { s with buf := m, cur := k.offset + 2, st := nextOf k, stim := rest } ∧
      (m.read k.offset).toNat = n / 256 ∧ (m.read (k.offset + 1)).toNat = n % 256 ∧
      ∀ a, ¬ ownsIndex k a → m.read a = s.buf.read a

/-- 41_field_encode.md R67, R68 (with R58, R60, R61): the completion of ENC_TEMP and ENC_HUM on finite readings, for a core whose
`P_MEAN` is the exact mean, the spec's decided default (log 8). -/
def Obligations.MeanCompletionWritesTruncatedMean : Prop :=
  ∀ (s : State) (k : Slot) (a c : Rat) (z : Int) (rest : List PortEvent), k = .temperature ∨ k = .humidity →
    s.buf.wf = true → s.st = .wait k → s.cur = k.offset → s.params.mean = .exact →
    formatHas s.params.float a = true → formatHas s.params.float c = true → IsTrunc ((a + c) / 2) z →
    s.stim = .sens k (.pair (.finite a) (.finite c)) :: rest →
    ∃ m : Memory, exec (.encOf k) s = .next { s with buf := m, cur := k.offset + 1, st := nextOf k, stim := rest } ∧
      ((m.read k.offset).toNat : Int) = z % 256 ∧ ∀ i, i ≠ k.offset → m.read i = s.buf.read i

/-- 41_field_encode.md R69 (with R58, R62): the completion of ENC_PRES on a finite reading in Pa, for a core whose `P_KPA` is the
exact quotient, the spec's decided default (log 8). -/
def Obligations.PressureCompletionWritesTruncatedKpa : Prop :=
  ∀ (s : State) (p : Rat) (z : Int) (rest : List PortEvent), s.buf.wf = true → s.st = .wait .pressure → s.cur = 8 →
    s.params.kpa = .exact → formatHas s.params.float p = true → IsTrunc (p / 1000) z → s.stim = .sens .pressure (.single (.finite p)) :: rest →
    ∃ m : Memory, exec .encPres s = .next { s with buf := m, cur := 9, st := .tx1, stim := rest } ∧
      ((m.read 8).toNat : Int) = z % 256 ∧ ∀ i, i ≠ 8 → m.read i = s.buf.read i

/-- 00_scope.md R8, 41_field_encode.md R60 to R62, R67 to R69, 60_exceptions.md R86: the configuration fields. Whatever `P_FLOAT`,
`P_MEAN` and `P_KPA` are, ENC_TEMP, ENC_HUM and ENC_PRES complete on every answer of the slot's type and write `T8` of the
derived value, with the next free byte where that value is not finite. That the state carries the fields is the model's
choice (log 24), and so is the counter `draws` that numbers the free bytes (log 6). -/
def Obligations.EveryConfigurationEncodesItsDerivedValue : Prop :=
  ∀ (s : State) (k : Slot) (v : SensValue) (x : Reading) (rest : List PortEvent), s.buf.wf = true → s.st = .wait k →
    s.cur = k.offset → s.stim = .sens k v :: rest → answerInType s.params.float k v →
    ((k = .temperature ∨ k = .humidity) ∧ (∃ a c, v = .pair a c ∧ x = pMean s.params.mean a c) ∨
      k = .pressure ∧ ∃ p, v = .single p ∧ x = pKpa s.params.kpa p) →
    ∃ m : Memory, exec (.encOf k) s = .next
        { s with buf := m, cur := k.offset + 1, st := nextOf k, stim := rest, draws := s.draws + t8Draws x } ∧
      m.read k.offset = t8 (Config.nonFiniteByte s.draws) x ∧ ∀ i, i ≠ k.offset → m.read i = s.buf.read i

/-- 41_field_encode.md R58, R60, R61, R62, 60_exceptions.md R86: a non-finite reading completes too. Its byte is the next free
value, numbered by the model's counter `draws` (log 6), and everything else is as for a finite one. -/
def Obligations.NonFiniteReadingDrawsByte : Prop :=
  ∀ (s : State) (k : Slot) (v : SensValue) (rest : List PortEvent), s.buf.wf = true → s.st = .wait k → s.cur = k.offset →
    s.stim = .sens k v :: rest → answerInType s.params.float k v →
    ((k = .temperature ∨ k = .humidity) ∧ (∃ n b, v = .pair (.nonFinite n) b ∨ v = .pair b (.nonFinite n)) ∨
      k = .pressure ∧ ∃ n, v = .single (.nonFinite n)) →
    ∃ m : Memory, exec (.encOf k) s = .next
        { s with buf := m, cur := k.offset + 1, st := nextOf k, stim := rest, draws := s.draws + 1 } ∧
      m.read k.offset = Config.nonFiniteByte s.draws ∧ ∀ i, i ≠ k.offset → m.read i = s.buf.read i

/-- 41_field_encode.md R63, the issue step of the six encode operations: one read of the slot is issued and the core waits. No
agent acts in the step (log 2). -/
def Obligations.EncodeIssuesReadAndWaits : Prop :=
  ∀ (s : State) (k : Slot), s.st = .asm k → quiet s.stim →
    exec (.encOf k) s = .next { s with st := .wait k, log := s.log ++ [.read k], stim := passSilent s.stim }

/-- 41_field_encode.md R70 to R74: the fill operations of the first five slots write 0xFF in each of the slot's bytes. No agent
acts in the step (log 2). -/
def Obligations.FillWritesFillerBytes : Prop :=
  ∀ (s : State) (k : Slot), k ≠ .pressure → s.buf.wf = true → s.st = .asm k → s.cur = k.offset → quiet s.stim →
    ∃ m : Memory, exec (.fillOf k) s = .next
        { s with buf := m, cur := k.offset + k.width, st := nextOf k, stim := passSilent s.stim } ∧
      (∀ a, ownsIndex k a → m.read a = 0xFF) ∧ ∀ a, ¬ ownsIndex k a → m.read a = s.buf.read a

/-- 41_field_encode.md R75: FILL_PRES writes `P_PRES_FILL` (0xFF by decision) to `buf[8]`, which makes F2 due; with the
alternative 0x00 the same step would make it not due. No agent acts in the step (log 2). -/
def Obligations.PressureFillMakesSecondFrameDue : Prop :=
  ∀ s : State, s.buf.wf = true → s.st = .asm .pressure → s.cur = 8 → quiet s.stim →
    (∃ m : Memory, exec .fillPres s = .next { s with buf := m, cur := 9, st := .tx1, stim := passSilent s.stim } ∧
      m.read 8 = 0xFF ∧ secondFrame m = true ∧ ∀ a, a ≠ 8 → m.read a = s.buf.read a) ∧
    (∃ m : Memory, fillSlot .pressure Config.presFillPatched s
        = .next { s with buf := m, cur := 9, st := .tx1, stim := passSilent s.stim } ∧
      m.read 8 = 0x00 ∧ secondFrame m = false)

/-- 70_reset_and_hazards.md R105: a requested wide reading of 65535 leaves the buffer as the filler does. -/
def Obligations.WideFillerLooksLikeData : Prop :=
  ∀ (s u : State) (k : Slot) (rest : List PortEvent), k.width = 2 → s.st = .wait k → s.cur = k.offset →
    s.stim = .sens k (.wide 65535) :: rest → u.st = .asm k → u.cur = k.offset → quiet u.stim → u.buf = s.buf →
    ∃ t t', exec (.encOf k) s = .next t ∧ exec (.fillOf k) u = .next t' ∧ t.buf = t'.buf ∧ t.st = t'.st

/-! ### put and the fault -/

/-- 41_field_encode.md R77: `put` writes at the cursor and moves it on, or, past the buffer, raises BufferOverrun and changes
nothing else. -/
def Obligations.PutWritesOrRaisesOverrun : Prop :=
  ∀ (v : Byte) (s : State), s.buf.wf = true →
    (s.cur < 9 → ∃ m : Memory, put v s = .ok { s with buf := m, cur := s.cur + 1 } ∧ m.wf = true ∧ m.read s.cur = v ∧
      ∀ a, a ≠ s.cur → m.read a = s.buf.read a) ∧
    (9 ≤ s.cur → ∃ flt : List Fault, put v s = .error { s with flt := flt } ∧ ∀ r, r ∈ flt ↔ r ∈ s.flt ∨ r = .bufferOverrun)

/-- 41_field_encode.md R77, 60_exceptions.md R89: a slot operation that writes its bytes (a fill in ASM(k), an encode's
completion in WAIT(k)) and whose bytes do not fit records BufferOverrun and leaves `st`;
from then on the core has no further step. How the recording step ends is read from the rules by inference (log 15). -/
def Obligations.OverrunRecordsFaultAndStopsCore : Prop :=
  (∀ (s : State) (k : Slot), s.st = .asm k → quiet s.stim → 9 < s.cur + k.width →
    ∃ t, exec (.fillOf k) s = .next t ∧ Fault.bufferOverrun ∈ t.flt ∧ t.st = s.st ∧ t.sel = s.sel ∧ t.log = s.log) ∧
  (∀ (s : State) (k : Slot) (v : SensValue) (rest : List PortEvent), s.st = .wait k → s.stim = .sens k v :: rest →
    answerInType s.params.float k v → 9 < s.cur + k.width →
    ∃ t, exec (.encOf k) s = .next t ∧ Fault.bufferOverrun ∈ t.flt ∧ t.st = s.st ∧ t.sel = s.sel ∧ t.log = s.log) ∧
  (∀ s : State, Fault.bufferOverrun ∈ s.flt → (∀ d r, s.stim ≠ .reset d :: r) → step s = .fault .bufferOverrun)

/-- 60_exceptions.md R83: the recorded faults are sticky: no operation removes one, and a core that has recorded one takes no
step after which it could be gone. -/
def Obligations.FaultsAreSticky : Prop :=
  (∀ (i : Instr) (s t : State), exec i s = .next t → ∀ r ∈ s.flt, r ∈ t.flt) ∧
  (∀ s t : State, (∀ d r, s.stim ≠ .reset d :: r) → step s = .next t → s.flt = [])

/-! ### The dispatcher -/

/-- 42_frame_dispatch.md R78 (with 30_encoding.md R43 and 10_state.md R18): when the transport accepts, F1 is sent with `buf[0..7]`
in index order, whatever the selection, and F2 follows exactly when `buf[8]` is not zero. Only `st` is written. -/
def Obligations.AcceptedF1IsSentAndDecidesF2 : Prop :=
  ∀ (s : State) (rest : List PortEvent), s.st = .tx1 → s.stim = .txAccept :: rest →
    exec .txF1 s = .next { s with
      st := if s.buf.read 8 ≠ 0x00 then .tx2 else .idle,
      log := s.log ++ [.sent { id := 0x1A5, len := 8, data := [s.buf.read 0, s.buf.read 1, s.buf.read 2, s.buf.read 3,
        s.buf.read 4, s.buf.read 5, s.buf.read 6, s.buf.read 7] }],
      stim := rest }

/-- 42_frame_dispatch.md R79 (with 30_encoding.md R44): when the transport accepts, F2 is sent with `buf[8]` and the cycle ends.
Only `st` is written. -/
def Obligations.AcceptedF2IsSentAndEndsCycle : Prop :=
  ∀ (s : State) (rest : List PortEvent), s.st = .tx2 → s.stim = .txAccept :: rest →
    exec .txF2 s = .next { s with
      st := .idle, log := s.log ++ [.sent { id := 0x1A6, len := 1, data := [s.buf.read 8] }], stim := rest }

/-- 42_frame_dispatch.md R80: with `buf[8] = 0x00` the cycle ends without a second send, and TX_F1's acceptance ends in the
same sequencer state. -/
def Obligations.ZeroByte8EndsCycleWithoutF2 : Prop :=
  ∀ s : State, s.st = .tx1 → s.buf.read 8 = 0x00 →
    exec .noF2 s = .next { s with st := .idle } ∧
    ∀ rest, s.stim = .txAccept :: rest → ∃ t, exec .txF1 s = .next t ∧ t.st = .idle ∧ t.outstandingOffer = none ∧
      t.log = s.log ++ [.sent { id := 0x1A5, len := 8, data := readBytes s.buf 0 8 }]

/-- 60_exceptions.md R85: in WAIT(k), TX1 and TX2 nothing happens until the awaited agent acts. That a hold is a step, one that
leaves the core as it is, is the model's choice (log 19; R82 makes the hold an outcome of its own), and so are the line
`silent` and the empty list (log 2). -/
def Obligations.HoldChangesNothing : Prop :=
  ∀ s : State, s.flt = [] → ((∃ k, s.st = .wait k) ∨ s.st = .tx1 ∨ s.st = .tx2) →
    (s.stim = [] → step s = .next s) ∧ ∀ rest, s.stim = .silent :: rest → step s = .next { s with stim := rest }

/-- 70_reset_and_hazards.md R107, 60_exceptions.md R85: a sensor that never answers, or a transport that never accepts, holds the
core for ever. The run of hold steps over silent lines is the model's form of it: a hold is a step that changes nothing
(log 19), and the line `silent` is a step in which no agent acts (log 2). -/
def Obligations.UnansweredHoldLastsForever : Prop :=
  ∀ (s : State) (m n : Nat), s.flt = [] → ((∃ k, s.st = .wait k) ∨ s.st = .tx1 ∨ s.st = .tx2) →
    s.stim = List.replicate m .silent →
    Host.Core.run Sys2Proof.core n s = .next { s with stim := List.replicate (m - n) .silent }

/-- 42_frame_dispatch.md R80, 70_reset_and_hazards.md R104: under the default `P_KPA` a requested pressure between -1000 and 1000 Pa
leaves `buf[8] = 0x00`, so that F1's acceptance ends the cycle and no F2 is sent. -/
def Obligations.SmallPressureWithholdsF2 : Prop :=
  ∀ (s : State) (p : Rat) (rest : List PortEvent), s.buf.wf = true → s.flt = [] → s.st = .wait .pressure → s.cur = 8 →
    s.params.kpa = .exact → formatHas s.params.float p = true → -1000 < p → p < 1000 → s.stim = .sens .pressure (.single (.finite p)) :: .txAccept :: rest →
    ∃ t t', step s = .next t ∧ t.buf.read 8 = 0x00 ∧ step t = .next t' ∧ t'.st = .idle ∧ t'.stim = rest ∧
      t'.log = s.log ++ [.sent (frame1 t.buf)]

/-- 70_reset_and_hazards.md R103: in a cycle that does not request pressure, F1's acceptance is followed by the offer of F2 with
payload `[FF]`. -/
def Obligations.UnrequestedPressureStillSendsF2 : Prop :=
  ∀ (s : State) (rest : List PortEvent), s.Inv → s.st = .tx1 → s.selected .pressure = false → s.stim = .txAccept :: rest →
    ∃ t, step s = .next t ∧ t.st = .tx2 ∧ t.outstandingOffer = some { id := 0x1A6, len := 1, data := [0xFF] }

/-! ### Whole-machine rules -/

/-- The invariant holds after reset, at power-on and after a reset event with any draw (10_state.md R27). -/
def Obligations.ResetHasInvariant : Prop :=
  State.reset.Inv ∧ ∀ (d : ResetDraw) (s : State), (applyReset d s).Inv

/-- Every step keeps the invariant: the buffer's canonical form, no fault, the cursor of 10_state.md R20 in each sequencer
state, and filler in every assembled slot that is not requested (20_memory.md R34, 41_field_encode.md R76). -/
def Obligations.StepKeepsInvariant : Prop :=
  ∀ s t : State, s.Inv → step s = .next t → t.Inv

/-- 41_field_encode.md R77, 60_exceptions.md R83: with the layout of 00_scope.md R7, no step from a state that meets the
invariant is a fault, and no fault is recorded. -/
def Obligations.OverrunIsUnreachable : Prop :=
  ∀ s : State, s.Inv → (∀ r, step s ≠ .fault r) ∧ ∀ t, step s = .next t → t.flt = []

/-- 10_state.md R16, 60_exceptions.md R85: the transitions of `st` are those of the table, and no others exist. Where the awaited
agent does not act, the core stays: R85 gives no step there, and the step that stays is the model's choice (log 19). -/
def Obligations.TransitionsFollowTable : Prop :=
  ∀ s t : State, s.Inv → (∀ d r, s.stim ≠ .reset d :: r) → step s = .next t → t.st = tableNext s

/-- 10_state.md R17: no step but RX_REQUEST writes a selection flag, and RX_REQUEST writes all six from its payload. -/
def Obligations.OnlyRequestWritesSelection : Prop :=
  ∀ s t : State, (∀ d r, s.stim ≠ .reset d :: r) → step s = .next t →
    t.sel = s.sel ∨ ∃ f rest, s.st = .idle ∧ s.stim = .rx f :: rest ∧ f.id = 0x1A4 ∧ t.st = .asm .methane ∧
      t.sel = selectionOf (f.data.take f.len)

/-- 10_state.md R19, 20_memory.md R28: only the slot steps write the buffer, and only at the cursor: in ASM(k) and WAIT(k) every
byte outside `cur .. cur + W[k] - 1` stays, and in the other states every byte stays. -/
def Obligations.BufferWrittenOnlyAtCursor : Prop :=
  ∀ s t : State, s.buf.wf = true → (∀ d r, s.stim ≠ .reset d :: r) → step s = .next t →
    (∀ k, s.st = .asm k ∨ s.st = .wait k → ∀ a, ¬ (s.cur ≤ a ∧ a < s.cur + k.width) → t.buf.read a = s.buf.read a) ∧
    (s.st = .idle ∨ s.st = .tx1 ∨ s.st = .tx2 → t.buf = s.buf)

/-- 20_memory.md R35: each step adds at most one effect to what is visible, and it is the one its state allows: a request
polled in IDLE, the read of slot k in ASM(k) and only when it is requested, F1 in TX1, F2 in TX2. -/
def Obligations.EffectsComeInSequencerOrder : Prop :=
  ∀ s t : State, (∀ d r, s.stim ≠ .reset d :: r) → step s = .next t →
    t.log = s.log ∨
    (∃ f rest, s.st = .idle ∧ s.stim = .rx f :: rest ∧ f.id = 0x1A4 ∧ t.st = .asm .methane ∧
      t.log = s.log ++ [.polled (f.data.take f.len)]) ∨
    (∃ k, s.st = .asm k ∧ s.selected k = true ∧ t.st = .wait k ∧ t.log = s.log ++ [.read k]) ∨
    (s.st = .tx1 ∧ t.log = s.log ++ [.sent (frame1 s.buf)]) ∨
    (s.st = .tx2 ∧ t.log = s.log ++ [.sent (frame2 s.buf)])

/-- 10_state.md R16, 30_encoding.md R42, R46: whatever the state and the events, the sequencer reaches an operation in its own
state and with a word of its own: `step` is never refused as out of sequence, undecodable or not modelled. -/
def Obligations.SequencerNeverLeavesItsTable : Prop :=
  ∀ (s : State) (r : Refusal), step s = .refused r →
    r ≠ .outOfSequence ∧ (∀ e, r ≠ .undecodable e) ∧ ∀ m, r ≠ .notModelled m

/-- 30_encoding.md R46, 60_exceptions.md R81: every input of the port types has an effect: no frame is rejected in IDLE, no
answer of the slot's type in WAIT(k), and no acceptance in TX1 and TX2. ASM(k) needs no input: its step completes when no
agent acts in it (log 2). -/
def Obligations.EveryInTypeInputHasEffect : Prop :=
  ∀ s : State, s.Inv →
    (s.st = .idle → ∀ f rest, s.stim = .rx f :: rest → f.inType → ∃ t, step s = .next t ∧ t.stim = rest) ∧
    (∀ k, s.st = .wait k → ∀ v rest, s.stim = .sens k v :: rest → answerInType s.params.float k v →
      ∃ t, step s = .next t ∧ t.stim = rest ∧ t.st = nextOf k) ∧
    ((s.st = .tx1 ∨ s.st = .tx2) → ∀ rest, s.stim = .txAccept :: rest → ∃ t, step s = .next t ∧ t.stim = rest) ∧
    (∀ k, s.st = .asm k → quiet s.stim → ∃ t, step s = .next t)

/-- 10_state.md R16 (the model's choice where `exec` is asked for an operation the sequencer does not reach, log 16): it is
refused as out of sequence. -/
def Obligations.UnreachedOperationIsRefused : Prop :=
  ∀ s : State,
    (s.st ≠ .idle → exec .pollNone s = .refused .outOfSequence ∧
      (∀ id data, exec (.rxDiscard id data) s = .refused .outOfSequence) ∧
      ∀ data, exec (.rxRequest data) s = .refused .outOfSequence) ∧
    (∀ k, s.st ≠ .asm k → exec (.fillOf k) s = .refused .outOfSequence) ∧
    (∀ k, s.st ≠ .asm k → s.st ≠ .wait k → exec (.encOf k) s = .refused .outOfSequence) ∧
    (s.st ≠ .tx1 → exec .txF1 s = .refused .outOfSequence ∧ exec .noF2 s = .refused .outOfSequence) ∧
    (s.st = .tx1 → s.buf.read 8 ≠ 0x00 → exec .noF2 s = .refused .outOfSequence) ∧
    (s.st ≠ .tx2 → exec .txF2 s = .refused .outOfSequence)

/-- 10_state.md R25, 00_scope.md R8 (log 24): the configuration fields are no state: no operation and no step changes them, a
reset included. At power-on `P_MEAN` and `P_KPA` are the decided defaults. -/
def Obligations.ParametersNeverChange : Prop :=
  (∀ (i : Instr) (s t : State), exec i s = .next t → t.params = s.params) ∧
  (∀ s t : State, step s = .next t → t.params = s.params) ∧
  State.reset.params.mean = .exact ∧ State.reset.params.kpa = .exact

/-! ### Frames -/

/-- The frame of the operations that store nothing (formats RXF, SEL and TXF): every byte of the buffer, the fault record and
the draw count stay; the cursor stays but in RX_REQUEST; `sel` stays in the dispatcher, POLL_NONE and RX_DISCARD; the SEL
operations leave the sequencer, the cursor, the ports and the log alone. -/
def Obligations.NonStoringOperationsFrame : Prop :=
  ∀ (i : Instr) (s t : State), i.format ≠ .slotop → exec i s = .next t →
    (∀ a, t.buf.read a = s.buf.read a) ∧ t.flt = s.flt ∧ t.draws = s.draws ∧
    ((∀ data, i ≠ .rxRequest data) → t.cur = s.cur) ∧
    (i.format = .txf ∨ i = .pollNone ∨ (∃ id data, i = .rxDiscard id data) → t.sel = s.sel) ∧
    (i.format = .sel → t.st = s.st ∧ t.stim = s.stim ∧ t.log = s.log)

/-- The frame of the storing operations: `sel` stays; a fill operation logs nothing and draws nothing; an encode operation logs at
most the read of its slot; where the slot's bytes fit, the fault record stays. The bytes stored are those from the cursor
on, as many as the slot is wide: every other byte reads as before. -/
def Obligations.SlotOperationsFrame : Prop :=
  ∀ (k : Slot) (s t : State), s.buf.wf = true → exec (.encOf k) s = .next t ∨ exec (.fillOf k) s = .next t →
    t.sel = s.sel ∧ (s.cur + k.width ≤ 9 → t.flt = s.flt) ∧
    (∀ a, ¬ (s.cur ≤ a ∧ a < s.cur + k.width) → t.buf.read a = s.buf.read a) ∧
    (exec (.fillOf k) s = .next t → t.log = s.log ∧ t.draws = s.draws) ∧
    (exec (.encOf k) s = .next t → (t.log = s.log ∨ t.log = s.log ++ [.read k]) ∧
      (t.draws = s.draws ∨ t.draws = s.draws + 1) ∧ (k.width = 2 → t.draws = s.draws))

/-! ### Headlines -/

/-- 20_memory.md R34, R35, 41_field_encode.md R76, 42_frame_dispatch.md R78 to R80: a whole request cycle. From any IDLE core whose
buffer is canonical, on any payload of at most 8 bytes and any answers of the slots' types, the core reads exactly the
requested slots in slot order, fills the others, sends F1 and, iff byte 8 is not zero, F2, and is in IDLE again with the
events after the cycle untouched. It is done within 15 steps. The bytes of non-finite values are the free bytes drawn from
`s.draws` on (log 6). -/
def Obligations.RequestCycleSendsPackedResponse : Prop :=
  ∀ (s : State) (data : List Byte) (answers : Slot → SensValue) (rest : List PortEvent), s.st = .idle → s.flt = [] →
    s.buf.wf = true → data.length ≤ 8 → (∀ k, requested data k = true → answerInType s.params.float k (answers k)) →
    s.stim = cycleEvents s.params data answers s.draws ++ rest →
    ∃ n t, n ≤ 15 ∧ Host.Core.run Sys2Proof.core n s = .next t ∧ t.st = .idle ∧ t.stim = rest ∧ t.flt = [] ∧ t.cur = 9 ∧
      t.sel = selectionOf data ∧ readBytes t.buf 0 9 = responseBytes s.params data answers s.draws ∧
      t.log = s.log ++ cycleEffects s.params data answers s.draws

/-- 30_encoding.md R48: the lines of a cycle as a program, with the steps put in that use no port, are the cycle's events, and
the program's later lines go on from the cycle's selection. That the steps without a port have lines of their own is
the model's (log 2). -/
def Obligations.ProgramLinesScheduleCycle : Prop :=
  ∀ (p : Params) (data : List Byte) (answers : Slot → SensValue) (n : Nat) (sel : BitVec 6) (rest : List PortEvent),
    programEvents sel (cycleLines p data answers n ++ rest)
      = cycleEvents p data answers n ++ programEvents (selectionOf data) rest

/-- 10_state.md R26: nothing of `sel`, `buf` and `cur` that the current cycle has not written is ever read. Two cores that agree
on everything else take the same kind of step and agree again. -/
def Obligations.StaleRegistersAreNeverRead : Prop :=
  ∀ s t : State, s.Inv → t.Inv → SameCycle s t → SameOutcome (step s) (step t)

/-- 10_state.md R26, R27, 92_eei_decisions.md D17: what reset leaves unspecified is not observable. After a reset, in any
state, the run shows the same effects, offers, faults and stops whatever the unspecified registers hold. -/
def Obligations.UnspecifiedResetValuesAreUnobservable : Prop :=
  ∀ (s : State) (d d' : ResetDraw) (n : Nat),
    visible (Host.Core.run Sys2Proof.core n (applyReset d s)) = visible (Host.Core.run Sys2Proof.core n (applyReset d' s))

/-! ### Encodings -/

/-- Every well-formed operation is read back from its own bytes, with every operand. The bytes are the model's containers of the
fields of 30_encoding.md (log 11). -/
def Obligations.DecodeReadsBackEncode : Prop :=
  ∀ i : Instr, i.wf = true → decode i.format i.encode = .ok (i, [])

/-- What the decoder accepts is a well-formed operation of that format, followed by what is left: each word has one
meaning. The bytes are the model's containers (log 11). -/
def Obligations.DecodedWordIsEncoded : Prop :=
  ∀ (fmt : Format) (bytes rest : List Byte) (i : Instr), decode fmt bytes = .ok (i, rest) →
    i.wf = true ∧ i.format = fmt ∧ bytes = i.encode ++ rest

/-- Words written out from the fields of 30_encoding.md: the request identifier 001 1010 0100, the response identifiers, the
sentinel, a skipped byte, and SLOTOP codes. Where a field stands in the bytes (the length in bits 14..11, the position in
bits 10..8, the low byte first) is the model's choice (log 11). -/
def Obligations.SampleWordsDecode : Prop :=
  decode .rxf [0b10100100, 0b00010001, 0x11, 0x12] = .ok (.rxRequest [0x11, 0x12], []) ∧
  decode .rxf [0b10100100, 0b00000101] = .ok (.rxDiscard 0x5A4 [], []) ∧
  decode .sel [0b00010001, 0b00000101] = .ok (.selReq .pressure, []) ∧
  decode .sel [0b00010010, 0b00000001] = .ok (.selSkip .co2 0x12, []) ∧
  decode .slotop [0b00000101] = .ok (.encCo, []) ∧
  decode .slotop [0b00001010] = .ok (.fillPres, []) ∧
  decode .txf [0b10100101, 0b00000001] = .ok (.txF1, []) ∧
  decode .txf [0b10100110, 0b00000001] = .ok (.txF2, [])
end

