-- ==== Sys2Proof/Laws/Memory.lean ====
section
/-! SUPPORT. Laws/Memory.lean: the laws of the OutputBuffer: a byte reads as it was last written (20_memory.md R36), a write
leaves every other byte alone, and every operation keeps the canonical form. -/

namespace Sys2Proof.Machine

@[simp] theorem Memory.read_nil (a : Nat) : Memory.read [] a = unlistedByte := rfl

theorem Memory.read_cons (x : Nat) (v : Byte) (m : Memory) (a : Nat) :
    Memory.read ((x, v) :: m) a = if x = a then v else m.read a := rfl

/-- Nothing below the first index of a canonical list is listed. -/
theorem Memory.read_below {lo : Nat} {m : Memory} (h : Memory.wfFrom lo m = true) {a : Nat} (ha : a < lo) :
    m.read a = unlistedByte := by
  induction m generalizing lo with
  | nil => rfl
  | cons c m ih =>
    obtain ⟨x, v⟩ := c
    simp only [Memory.wfFrom, Bool.and_eq_true, decide_eq_true_eq] at h
    rw [Memory.read_cons, if_neg (by omega), ih h.2 (by omega)]

theorem Memory.wfFrom_mono {lo lo' : Nat} {m : Memory} (h : Memory.wfFrom lo m = true) (hl : lo' ≤ lo) :
    Memory.wfFrom lo' m = true := by
  cases m with
  | nil => rfl
  | cons c m =>
    obtain ⟨x, v⟩ := c
    simp only [Memory.wfFrom, Bool.and_eq_true, decide_eq_true_eq] at h ⊢
    exact ⟨⟨⟨by omega, h.1.1.2⟩, h.1.2⟩, h.2⟩

theorem consCell_wfFrom {lo a : Nat} {v : Byte} {m : Memory} (h : Memory.wfFrom (a + 1) m = true) (hlo : lo ≤ a)
    (ha : a < 9) : Memory.wfFrom lo (consCell a v m) = true := by
  unfold consCell
  split
  · exact Memory.wfFrom_mono h (by omega)
  · rename_i hv
    simp only [Memory.wfFrom, Bool.and_eq_true, decide_eq_true_eq, bne_iff_ne, ne_eq]
    exact ⟨⟨⟨hlo, ha⟩, hv⟩, h⟩

theorem consCell_read {a : Nat} {v : Byte} {m : Memory} (h : Memory.wfFrom (a + 1) m = true) (b : Nat) :
    (consCell a v m).read b = if b = a then v else m.read b := by
  unfold consCell
  by_cases hb : b = a
  · subst hb
    split
    · rename_i hv
      simp [Memory.read_below h (Nat.lt_succ_self b), hv]
    · simp [Memory.read_cons]
  · rw [if_neg hb]
    split
    · rfl
    · simp [Memory.read_cons, Ne.symm hb]

theorem Memory.write_wfFrom {lo : Nat} {m : Memory} (h : Memory.wfFrom lo m = true) {a : Nat} (hlo : lo ≤ a) (ha : a < 9)
    (v : Byte) : Memory.wfFrom lo (m.write a v) = true := by
  induction m generalizing lo with
  | nil => exact consCell_wfFrom rfl hlo ha
  | cons c m ih =>
    obtain ⟨x, u⟩ := c
    simp only [Memory.wfFrom, Bool.and_eq_true, decide_eq_true_eq, bne_iff_ne, ne_eq] at h
    unfold Memory.write
    split
    · rename_i hax
      refine consCell_wfFrom ?_ hlo ha
      simp only [Memory.wfFrom, Bool.and_eq_true, decide_eq_true_eq, bne_iff_ne, ne_eq]
      exact ⟨⟨⟨by omega, h.1.1.2⟩, h.1.2⟩, h.2⟩
    · split
      · rename_i hax
        subst hax
        exact consCell_wfFrom h.2 hlo ha
      · simp only [Memory.wfFrom, Bool.and_eq_true, decide_eq_true_eq, bne_iff_ne, ne_eq]
        exact ⟨⟨⟨h.1.1.1, h.1.1.2⟩, h.1.2⟩, ih h.2 (by omega)⟩

/-- A write to one of the nine bytes keeps the canonical form. -/
theorem Memory.write_wf {m : Memory} (h : m.wf = true) {a : Nat} (ha : a < 9) (v : Byte) : (m.write a v).wf = true :=
  Memory.write_wfFrom h (Nat.zero_le a) ha v

theorem Memory.read_write_from {lo : Nat} {m : Memory} (h : Memory.wfFrom lo m = true) {a : Nat} (v : Byte)
    (b : Nat) : (m.write a v).read b = if b = a then v else m.read b := by
  induction m generalizing lo with
  | nil => exact consCell_read rfl b
  | cons c m ih =>
    obtain ⟨x, u⟩ := c
    have h' := h
    simp only [Memory.wfFrom, Bool.and_eq_true, decide_eq_true_eq, bne_iff_ne, ne_eq] at h'
    unfold Memory.write
    split
    · rename_i hax
      refine consCell_read ?_ b
      simp only [Memory.wfFrom, Bool.and_eq_true, decide_eq_true_eq, bne_iff_ne, ne_eq]
      exact ⟨⟨⟨by omega, h'.1.1.2⟩, h'.1.2⟩, h'.2⟩
    · split
      · rename_i hax
        subst hax
        rw [consCell_read h'.2, Memory.read_cons]
        by_cases hb : b = a
        · simp [hb]
        · simp [hb, Ne.symm hb]
      · rename_i h1 h2
        rw [Memory.read_cons, ih h'.2, Memory.read_cons]
        by_cases hxb : x = b
        · subst hxb
          simp [Ne.symm h2]
        · simp [hxb]

/-- A read after a write: the byte written at its index, every other byte as before (20_memory.md R36). -/
theorem Memory.read_write {m : Memory} (h : m.wf = true) (a : Nat) (v : Byte) (b : Nat) :
    (m.write a v).read b = if b = a then v else m.read b :=
  Memory.read_write_from h v b

theorem bufferFrom_wfFrom (bs : List Byte) (a : Nat) (h : a + bs.length ≤ 9) : Memory.wfFrom a (bufferFrom a bs) = true := by
  induction bs generalizing a with
  | nil => rfl
  | cons b bs ih =>
    simp only [List.length_cons] at h
    exact consCell_wfFrom (ih (a + 1) (by omega)) (Nat.le_refl a) (by omega)

/-- A buffer laid out from bytes is canonical. -/
theorem bufferFrom_wf (bs : List Byte) (h : bs.length ≤ 9) : (bufferFrom 0 bs).wf = true :=
  bufferFrom_wfFrom bs 0 (by omega)

theorem bufferFrom_read (bs : List Byte) (a : Nat) (h : a + bs.length ≤ 9) (i : Nat) :
    (bufferFrom a bs).read (a + i) = bs.getD i unlistedByte := by
  induction bs generalizing a i with
  | nil => simp [bufferFrom]
  | cons b bs ih =>
    simp only [List.length_cons] at h
    rw [bufferFrom, consCell_read (bufferFrom_wfFrom bs (a + 1) (by omega))]
    cases i with
    | zero => simp
    | succ i =>
      rw [if_neg (by omega), show a + (i + 1) = (a + 1) + i by omega, ih (a + 1) (by omega)]
      simp

/-- The bytes read in index order are the reads at each index. -/
@[simp] theorem readBytes_length (m : Memory) (a n : Nat) : (readBytes m a n).length = n := by
  simp [readBytes]

theorem readBytes_congr {m m' : Memory} {a n : Nat} (h : ∀ i, a ≤ i → i < a + n → m.read i = m'.read i) :
    readBytes m a n = readBytes m' a n := by
  unfold readBytes
  refine List.map_congr_left fun i hi => ?_
  rw [List.mem_range'_1] at hi
  exact h i hi.1 hi.2

theorem reset_buf_wf : State.reset.buf.wf = true := by decide

end Sys2Proof.Machine
end

