-- ==== Sys2Proof/Laws/State.lean ====
section
/-! SUPPORT. Laws/State.lean: one lemma per field per update of the state, so that no proof unfolds a record update. -/

namespace Sys2Proof.Machine

variable (s : State)

/-! ### setSel -/

@[simp] theorem State.setSel_st (k : Slot) (b : Bool) : (s.setSel k b).st = s.st := rfl
@[simp] theorem State.setSel_sel (k : Slot) (b : Bool) : (s.setSel k b).sel = setBit s.sel k b := rfl
@[simp] theorem State.setSel_buf (k : Slot) (b : Bool) : (s.setSel k b).buf = s.buf := rfl
@[simp] theorem State.setSel_cur (k : Slot) (b : Bool) : (s.setSel k b).cur = s.cur := rfl
@[simp] theorem State.setSel_flt (k : Slot) (b : Bool) : (s.setSel k b).flt = s.flt := rfl
@[simp] theorem State.setSel_stim (k : Slot) (b : Bool) : (s.setSel k b).stim = s.stim := rfl
@[simp] theorem State.setSel_log (k : Slot) (b : Bool) : (s.setSel k b).log = s.log := rfl
@[simp] theorem State.setSel_draws (k : Slot) (b : Bool) : (s.setSel k b).draws = s.draws := rfl
@[simp] theorem State.setSel_params (k : Slot) (b : Bool) : (s.setSel k b).params = s.params := rfl

/-! ### clearCur -/

@[simp] theorem State.clearCur_st : (s.clearCur).st = s.st := rfl
@[simp] theorem State.clearCur_sel : (s.clearCur).sel = s.sel := rfl
@[simp] theorem State.clearCur_buf : (s.clearCur).buf = s.buf := rfl
@[simp] theorem State.clearCur_cur : (s.clearCur).cur = 0 := rfl
@[simp] theorem State.clearCur_flt : (s.clearCur).flt = s.flt := rfl
@[simp] theorem State.clearCur_stim : (s.clearCur).stim = s.stim := rfl
@[simp] theorem State.clearCur_log : (s.clearCur).log = s.log := rfl
@[simp] theorem State.clearCur_draws : (s.clearCur).draws = s.draws := rfl
@[simp] theorem State.clearCur_params : (s.clearCur).params = s.params := rfl

/-! ### goto -/

@[simp] theorem State.goto_st (x : SeqState) : (s.goto x).st = x := rfl
@[simp] theorem State.goto_sel (x : SeqState) : (s.goto x).sel = s.sel := rfl
@[simp] theorem State.goto_buf (x : SeqState) : (s.goto x).buf = s.buf := rfl
@[simp] theorem State.goto_cur (x : SeqState) : (s.goto x).cur = s.cur := rfl
@[simp] theorem State.goto_flt (x : SeqState) : (s.goto x).flt = s.flt := rfl
@[simp] theorem State.goto_stim (x : SeqState) : (s.goto x).stim = s.stim := rfl
@[simp] theorem State.goto_log (x : SeqState) : (s.goto x).log = s.log := rfl
@[simp] theorem State.goto_draws (x : SeqState) : (s.goto x).draws = s.draws := rfl
@[simp] theorem State.goto_params (x : SeqState) : (s.goto x).params = s.params := rfl

/-! ### emit -/

@[simp] theorem State.emit_st (e : Effect) : (s.emit e).st = s.st := rfl
@[simp] theorem State.emit_sel (e : Effect) : (s.emit e).sel = s.sel := rfl
@[simp] theorem State.emit_buf (e : Effect) : (s.emit e).buf = s.buf := rfl
@[simp] theorem State.emit_cur (e : Effect) : (s.emit e).cur = s.cur := rfl
@[simp] theorem State.emit_flt (e : Effect) : (s.emit e).flt = s.flt := rfl
@[simp] theorem State.emit_stim (e : Effect) : (s.emit e).stim = s.stim := rfl
@[simp] theorem State.emit_log (e : Effect) : (s.emit e).log = s.log ++ [e] := rfl
@[simp] theorem State.emit_draws (e : Effect) : (s.emit e).draws = s.draws := rfl
@[simp] theorem State.emit_params (e : Effect) : (s.emit e).params = s.params := rfl

/-! ### tick -/

@[simp] theorem State.tick_st : (s.tick).st = s.st := rfl
@[simp] theorem State.tick_sel : (s.tick).sel = s.sel := rfl
@[simp] theorem State.tick_buf : (s.tick).buf = s.buf := rfl
@[simp] theorem State.tick_cur : (s.tick).cur = s.cur := rfl
@[simp] theorem State.tick_flt : (s.tick).flt = s.flt := rfl
@[simp] theorem State.tick_stim : (s.tick).stim = passSilent s.stim := rfl
@[simp] theorem State.tick_log : (s.tick).log = s.log := rfl
@[simp] theorem State.tick_draws : (s.tick).draws = s.draws := rfl
@[simp] theorem State.tick_params : (s.tick).params = s.params := rfl

/-! ### polled -/

@[simp] theorem State.polled_st : (s.polled).st = s.st := rfl
@[simp] theorem State.polled_sel : (s.polled).sel = s.sel := rfl
@[simp] theorem State.polled_buf : (s.polled).buf = s.buf := rfl
@[simp] theorem State.polled_cur : (s.polled).cur = s.cur := rfl
@[simp] theorem State.polled_flt : (s.polled).flt = s.flt := rfl
@[simp] theorem State.polled_stim : (s.polled).stim = passPoll s.stim := rfl
@[simp] theorem State.polled_log : (s.polled).log = s.log := rfl
@[simp] theorem State.polled_draws : (s.polled).draws = s.draws := rfl
@[simp] theorem State.polled_params : (s.polled).params = s.params := rfl

/-! ### raiseFault -/

@[simp] theorem raiseFault_st (r : Fault) : (raiseFault r s).st = s.st := rfl
@[simp] theorem raiseFault_sel (r : Fault) : (raiseFault r s).sel = s.sel := rfl
@[simp] theorem raiseFault_buf (r : Fault) : (raiseFault r s).buf = s.buf := rfl
@[simp] theorem raiseFault_cur (r : Fault) : (raiseFault r s).cur = s.cur := rfl
@[simp] theorem raiseFault_flt (r : Fault) : (raiseFault r s).flt = if r ∈ s.flt then s.flt else s.flt ++ [r] := rfl
@[simp] theorem raiseFault_stim (r : Fault) : (raiseFault r s).stim = s.stim := rfl
@[simp] theorem raiseFault_log (r : Fault) : (raiseFault r s).log = s.log := rfl
@[simp] theorem raiseFault_draws (r : Fault) : (raiseFault r s).draws = s.draws := rfl
@[simp] theorem raiseFault_params (r : Fault) : (raiseFault r s).params = s.params := rfl

/-! ### applyReset -/

@[simp] theorem applyReset_st (d : ResetDraw) : (applyReset d s).st = SeqState.idle := rfl
@[simp] theorem applyReset_sel (d : ResetDraw) : (applyReset d s).sel = d.sel := rfl
@[simp] theorem applyReset_buf (d : ResetDraw) : (applyReset d s).buf = bufferFrom 0 d.buf.toList := rfl
@[simp] theorem applyReset_cur (d : ResetDraw) : (applyReset d s).cur = d.cur := rfl
@[simp] theorem applyReset_flt (d : ResetDraw) : (applyReset d s).flt = [] := rfl
@[simp] theorem applyReset_stim (d : ResetDraw) : (applyReset d s).stim = s.stim := rfl
@[simp] theorem applyReset_log (d : ResetDraw) : (applyReset d s).log = s.log ++ [.reset] := rfl
@[simp] theorem applyReset_draws (d : ResetDraw) : (applyReset d s).draws = s.draws := rfl
@[simp] theorem applyReset_params (d : ResetDraw) : (applyReset d s).params = s.params := rfl

end Sys2Proof.Machine
end

