-- ==== Sys2Proof/Laws/Ops.lean ====
section
/-! SUPPORT. Laws/Ops.lean: for each shared operation, what it can do, said once. -/

namespace Sys2Proof.Machine

/-! ### Slots and selection bits -/

theorem Slot.index_inj {j k : Slot} : j.index = k.index ↔ j = k := by
  cases j <;> cases k <;> decide

theorem Slot.index_lt (k : Slot) : k.index < 6 := by cases k <;> decide

/-- Each slot's bytes lie inside the buffer. -/
theorem Slot.end_le (k : Slot) : k.offset + k.width ≤ 9 := by cases k <;> decide

/-- Writing one selection bit leaves the other five. -/
theorem setBit_read (r : BitVec 6) (j k : Slot) (b : Bool) :
    (setBit r k b).getLsbD j.index = if j = k then b else r.getLsbD j.index := by
  cases b <;> cases j <;> cases k <;> simp [setBit, Slot.index]

@[simp] theorem State.selected_setSel (s : State) (j k : Slot) (b : Bool) :
    (s.setSel k b).selected j = if j = k then b else s.selected j :=
  setBit_read s.sel j k b

/-- Two selection registers with the same six bits are equal. -/
theorem sel_ext {a b : BitVec 6} (h : ∀ k : Slot, a.getLsbD k.index = b.getLsbD k.index) : a = b := by
  refine BitVec.eq_of_getLsbD_eq fun i hi => ?_
  match i, hi with
  | 0, _ => exact h .methane
  | 1, _ => exact h .co2
  | 2, _ => exact h .co
  | 3, _ => exact h .temperature
  | 4, _ => exact h .humidity
  | 5, _ => exact h .pressure

/-! ### The stimulus -/

theorem passSilent_of_ne {l : List PortEvent} (h : ∀ r, l ≠ .silent :: r) : passSilent l = l := by
  cases l with
  | nil => rfl
  | cons e l => cases e <;> first | rfl | exact absurd rfl (h l)

theorem resetNow_eq_some {s t : State} (h : resetNow s = some t) :
    ∃ d rest, s.stim = .reset d :: rest ∧ t = applyReset d { s with stim := rest } := by
  unfold resetNow at h
  split at h
  · rename_i d rest hs
    exact ⟨d, rest, hs, (Option.some.inj h).symm⟩
  · cases h

theorem resetNow_eq_none {s : State} : resetNow s = none ↔ ∀ d rest, s.stim ≠ .reset d :: rest := by
  unfold resetNow
  split
  · rename_i d rest hs
    simp [hs]
  · rename_i h
    simpa using h

/-! ### put -/

/-- The buffer with a list of bytes written from an index on. -/
def writeBytes (m : Memory) (a : Nat) : List Byte → Memory
  | [] => m
  | v :: vs => writeBytes (m.write a v) (a + 1) vs

theorem writeBytes_wf {m : Memory} (h : m.wf = true) (a : Nat) (vs : List Byte) (hl : a + vs.length ≤ 9) :
    (writeBytes m a vs).wf = true := by
  induction vs generalizing m a with
  | nil => exact h
  | cons v vs ih =>
    simp only [List.length_cons] at hl
    exact ih (Memory.write_wf h (by omega) v) (a + 1) (by omega)

/-- A byte after a list of bytes was written. -/
theorem writeBytes_read {m : Memory} (h : m.wf = true) (a : Nat) (vs : List Byte) (hl : a + vs.length ≤ 9) (b : Nat) :
    (writeBytes m a vs).read b = if a ≤ b ∧ b < a + vs.length then vs.getD (b - a) 0 else m.read b := by
  induction vs generalizing m a with
  | nil => rw [if_neg (by simp)]; rfl
  | cons v vs ih =>
    simp only [List.length_cons] at hl ⊢
    rw [writeBytes, ih (Memory.write_wf h (by omega) v) (a + 1) (by omega), Memory.read_write h]
    by_cases hab : b = a
    · subst hab; simp
    · by_cases hin : a + 1 ≤ b ∧ b < a + 1 + vs.length
      · rw [if_pos hin, if_pos (by omega)]
        obtain ⟨i, rfl⟩ : ∃ i, b = a + 1 + i := ⟨b - (a + 1), by omega⟩
        simp [show a + 1 + i - a = i + 1 by omega, show a + 1 + i - (a + 1) = i by omega]
      · rw [if_neg hin, if_neg hab, if_neg (by omega)]

theorem put_ok {s : State} (h : s.cur < 9) (v : Byte) :
    put v s = .ok { s with buf := s.buf.write s.cur v, cur := s.cur + 1 } := by
  rw [put, if_neg (by simp only [Config.bufLen]; omega)]

theorem put_overrun {s : State} (h : 9 ≤ s.cur) (v : Byte) : put v s = .error (raiseFault .bufferOverrun s) := by
  rw [put, if_pos (show Config.bufLen ≤ s.cur from h)]

/-- `put` of bytes that fit. -/
theorem putAll_ok {s : State} (vs : List Byte) (h : s.cur + vs.length ≤ 9) :
    putAll vs s = .ok { s with buf := writeBytes s.buf s.cur vs, cur := s.cur + vs.length } := by
  induction vs generalizing s with
  | nil => rfl
  | cons v vs ih =>
    simp only [List.length_cons] at h
    rw [putAll, put_ok (by omega)]
    simp only
    rw [ih (by simp only; omega)]
    simp [writeBytes, Nat.add_assoc, Nat.add_comm 1]

/-- `put` of bytes that do not fit: the first ones land, then the fault is raised. -/
theorem putAll_overrun {s : State} (vs : List Byte) (h : 9 < s.cur + vs.length) (hc : s.cur ≤ 9) :
    putAll vs s = .error (raiseFault .bufferOverrun
      { s with buf := writeBytes s.buf s.cur (vs.take (9 - s.cur)), cur := 9 }) := by
  induction vs generalizing s with
  | nil => simp at h; omega
  | cons v vs ih =>
    simp only [List.length_cons] at h
    by_cases h9 : s.cur = 9
    · rw [putAll, put_overrun (by omega)]
      cases s
      simp_all [writeBytes]
    · rw [putAll, put_ok (by omega)]
      simp only
      rw [ih (by simp only; omega) (by simp only; omega)]
      obtain ⟨n, hn⟩ : ∃ n, 9 - s.cur = n + 1 := ⟨8 - s.cur, by omega⟩
      simp [hn, writeBytes, show 9 - (s.cur + 1) = n by omega]

/-! ### The end of a slot's step -/

/-- A slot's bytes that fit: they are written at the cursor, the cursor moves past them, and the sequencer goes on. -/
theorem writeSlot_ok {s : State} (k : Slot) (vs : List Byte) (h : s.cur + vs.length ≤ 9) :
    writeSlot k vs s = .next { s with buf := writeBytes s.buf s.cur vs, cur := s.cur + vs.length, st := nextOf k } := by
  rw [writeSlot, putAll_ok vs h]
  rfl

/-- What `put` of bytes leaves alone, whether or not it overruns. -/
theorem putAll_frame (vs : List Byte) (s : State) :
    ∃ t, (putAll vs s = .ok t ∧ t.flt = s.flt ∧ t.cur = s.cur + vs.length ∧ (vs = [] ∨ s.cur + vs.length ≤ 9) ∨
        putAll vs s = .error t ∧ Fault.bufferOverrun ∈ t.flt ∧ (∀ r ∈ s.flt, r ∈ t.flt) ∧ 9 < s.cur + vs.length) ∧
      t.st = s.st ∧ t.sel = s.sel ∧ t.stim = s.stim ∧ t.log = s.log ∧ (t.draws = s.draws ∧ t.params = s.params) ∧
      (s.buf.wf = true → t.buf.wf = true ∧
        ∀ a, ¬ (s.cur ≤ a ∧ a < s.cur + vs.length) → t.buf.read a = s.buf.read a) := by
  induction vs generalizing s with
  | nil => exact ⟨s, .inl ⟨rfl, rfl, rfl, .inl rfl⟩, rfl, rfl, rfl, rfl, ⟨rfl, rfl⟩, fun h => ⟨h, fun _ _ => rfl⟩⟩
  | cons v vs ih =>
    simp only [putAll, List.length_cons]
    by_cases hc : 9 ≤ s.cur
    · rw [put_overrun hc]
      refine ⟨_, .inr ⟨rfl, ?_, ?_, by omega⟩, rfl, rfl, rfl, rfl, ⟨rfl, rfl⟩, fun h => ⟨h, fun _ _ => rfl⟩⟩
      · simp only [raiseFault]; split <;> simp_all
      · intro r hr
        simp only [raiseFault]; split <;> simp_all
    · rw [put_ok (by omega)]
      obtain ⟨t, h, h1, h2, h3, h4, h5, h6⟩ := ih { s with buf := s.buf.write s.cur v, cur := s.cur + 1 }
      refine ⟨t, ?_, h1, h2, h3, h4, h5, fun hw => ?_⟩
      · rcases h with ⟨h, hf, hcur, hlen⟩ | ⟨h, hf, hst, hlen⟩
        · refine .inl ⟨h, hf, by simp only at hcur; omega, .inr ?_⟩
          rcases hlen with rfl | hlen
          · simp only [List.length_nil]; omega
          · simp only at hlen; omega
        · exact .inr ⟨h, hf, hst, by simp only at hlen; omega⟩
      · obtain ⟨hw', hr⟩ := h6 (Memory.write_wf hw (by omega) v)
        refine ⟨hw', fun a ha => ?_⟩
        rw [hr a (by simp only; omega), Memory.read_write hw, if_neg (by omega)]

/-- What the end of a slot's step can do: it always answers a next state; where the bytes fit, the fault record and the
cursor are as the layout says and the sequencer goes on; where they do not, the overrun is recorded and `st` stays. -/
theorem writeSlot_frame (k : Slot) (vs : List Byte) (hv : vs ≠ []) (s : State) :
    ∃ t, writeSlot k vs s = .next t ∧
      (s.cur + vs.length ≤ 9 ∧ t.flt = s.flt ∧ t.cur = s.cur + vs.length ∧ t.st = nextOf k ∨
        9 < s.cur + vs.length ∧ Fault.bufferOverrun ∈ t.flt ∧ (∀ r ∈ s.flt, r ∈ t.flt) ∧ t.st = s.st) ∧
      t.sel = s.sel ∧ t.stim = s.stim ∧ t.log = s.log ∧ (t.draws = s.draws ∧ t.params = s.params) ∧
      (s.buf.wf = true → t.buf.wf = true ∧
        ∀ a, ¬ (s.cur ≤ a ∧ a < s.cur + vs.length) → t.buf.read a = s.buf.read a) := by
  obtain ⟨t, ⟨h, hf, hc, hl⟩ | ⟨h, hf, hst, hl⟩, h1, h2, h3, h4, h5, h6⟩ := putAll_frame vs s
  · exact ⟨t.goto (nextOf k), by simp only [writeSlot, h], .inl ⟨hl.resolve_left hv, hf, hc, rfl⟩, h2, h3, h4, h5, h6⟩
  · exact ⟨t, by simp only [writeSlot, h], .inr ⟨hl, hf, hst, h1⟩, h2, h3, h4, h5, h6⟩

/-! ### Shared steps -/

/-- A step in which no agent acts takes its line `silent`, if one is left, and no other. -/
theorem State.tick_of_ne {s : State} (h : ∀ r, s.stim ≠ .silent :: r) : s.tick = s := by
  cases s
  simp_all [State.tick, passSilent_of_ne]

/-- What a step that needs no agent can do: refuse an event at a port, or act. -/
theorem quietStep_cases (act : State → Result) (s : State) :
    (∃ r, quietStep act s = .refused r ∧
      (r = .answerWithoutRead ∨ r = .pollAnswerWithoutPoll ∨ r = .acceptWithoutOffer)) ∨
    quietStep act s = act s.tick := by
  unfold quietStep
  split
  · exact .inl ⟨_, rfl, .inl rfl⟩
  · exact .inl ⟨_, rfl, .inr (.inl rfl)⟩
  · exact .inl ⟨_, rfl, .inr (.inl rfl)⟩
  · exact .inl ⟨_, rfl, .inr (.inr rfl)⟩
  · exact .inr rfl
  · rename_i hs
    rw [State.tick_of_ne (by simp [hs])]
    exact .inr rfl
  · rename_i hs
    rw [State.tick_of_ne (by simp [hs])]
    exact .inr rfl

/-- When no agent acts, a step that needs none acts. -/
theorem quietStep_of {s : State} (h : quiet s.stim) (act : State → Result) : quietStep act s = act s.tick := by
  unfold quietStep
  split <;> rename_i hs <;> rw [hs] at h <;> try exact h.elim
  rw [State.tick_of_ne (by simp [hs])]

/-- A fill step answers in ASM(k) and nowhere else. -/
theorem fillSlot_eq {s : State} {k : Slot} (h : s.st = .asm k) (v : Byte) :
    fillSlot k v s = quietStep (writeSlot k (List.replicate k.width v)) s := by
  rw [fillSlot, if_pos h]

/-- An encode step in ASM(k) is the issue. -/
theorem encodeSlot_issue {s : State} {k : Slot} (h : s.st = .asm k) (f : SensValue → State → Result) :
    encodeSlot k f s = quietStep (fun s => .next ((s.emit (.read k)).goto (.wait k))) s := by
  rw [encodeSlot, if_pos h, issueRead]

/-- An encode step in WAIT(k) waits for the answer. -/
theorem encodeSlot_wait {s : State} {k : Slot} (h : s.st = .wait k) (f : SensValue → State → Result) :
    encodeSlot k f s = awaitSensor k f s := by
  rw [encodeSlot, if_neg (by simp [h]), if_pos h]

/-- What follows the answer in each slot's encode operation. -/
def completionOf (k : Slot) : SensValue → State → Result :=
  match k with
  | .methane => completeWide .methane
  | .co2 => completeWide .co2
  | .co => completeWide .co
  | .temperature => completeMean .temperature
  | .humidity => completeMean .humidity
  | .pressure => completeKpa .pressure

/-- The six encode operations are one shared step. -/
theorem exec_encOf (k : Slot) (s : State) : exec (.encOf k) s = encodeSlot k (completionOf k) s := by
  cases k <;> rfl

/-- The six fill operations are one shared step. -/
theorem exec_fillOf (k : Slot) (s : State) : exec (.fillOf k) s = fillSlot k (fillerOf k) s := by
  cases k <;> rfl

theorem t8Draws_le (x : Reading) : t8Draws x ≤ 1 := by cases x <;> simp [t8Draws]

/-- What a completion can do: refuse the answer's type, range or format, or write the slot's bytes after drawing at most one
free byte, and none for a wide slot. -/
theorem completionOf_cases (k : Slot) (v : SensValue) (s : State) :
    (∃ r, completionOf k v s = .refused r ∧
      (r = .wideReadingOutOfRange ∨ r = .answerOfWrongType ∨ r = .readingOutsideFormat)) ∨
    (∃ bytes n, bytes.length = k.width ∧ n ≤ 1 ∧ (k.width = 2 → n = 0) ∧
      completionOf k v s = writeSlot k bytes { s with draws := s.draws + n }) := by
  cases k <;> cases v <;>
    simp only [completionOf, completeWide, completeMean, completeKpa, wideAnswer, pairAnswer, singleAnswer, writeTruncated]
  case' methane.wide n => by_cases h : 0 ≤ n ∧ n ≤ 65535
  case' co2.wide n => by_cases h : 0 ≤ n ∧ n ≤ 65535
  case' co.wide n => by_cases h : 0 ≤ n ∧ n ≤ 65535
  case' temperature.pair a c => by_cases h : (readingInFormat s.params.float a && readingInFormat s.params.float c) = true
  case' humidity.pair a c => by_cases h : (readingInFormat s.params.float a && readingInFormat s.params.float c) = true
  case' pressure.single p => by_cases h : readingInFormat s.params.float p = true
  all_goals first
    | exact .inl ⟨_, rfl, .inr (.inl rfl)⟩
    | exact .inr ⟨_, _, rfl, t8Draws_le _, nofun, rfl⟩
    | (rw [if_pos h]; exact .inr ⟨_, 0, rfl, Nat.zero_le 1, fun _ => rfl, rfl⟩)
    | (rw [if_pos h]; exact .inr ⟨_, _, rfl, t8Draws_le _, nofun, rfl⟩)
    | (rw [if_neg h]; exact .inl ⟨_, rfl, .inl rfl⟩)
    | (rw [if_neg h]; exact .inl ⟨_, rfl, .inr (.inr rfl)⟩)

/-- A completion on an answer of the slot's type writes the answer's bytes and takes its free bytes. -/
theorem completionOf_inType {k : Slot} {v : SensValue} {s : State} (h : answerInType s.params.float k v) :
    completionOf k v s = writeSlot k (answerBytes s.params (Config.nonFiniteByte s.draws) v)
      { s with draws := s.draws + answerDraws s.params v } := by
  cases k <;> cases v <;> simp only [answerInType] at h
  case methane.wide n | co2.wide n | co.wide n =>
    simp only [completionOf, completeWide, wideAnswer, if_pos h]
    congr 1
    simp only [w16, answerBytes, List.cons.injEq, and_true]
    constructor <;> apply BitVec.eq_of_toNat_eq <;> simp [BitVec.extractLsb'_toNat, Nat.shiftRight_eq_div_pow] <;> omega
  case temperature.pair a c | humidity.pair a c =>
    simp only [completionOf, completeMean, pairAnswer, h.1, h.2, Bool.and_self, if_true]
    rfl
  case pressure.single p =>
    simp only [completionOf, completeKpa, singleAnswer, h, if_true]
    rfl

/-- The bytes of an answer of the slot's type are as many as the slot is wide. -/
theorem answerBytes_length {f : FloatFormat} {k : Slot} {v : SensValue} (h : answerInType f k v) (p : Params) (d : Byte) :
    (answerBytes p d v).length = k.width := by
  cases k <;> cases v <;> simp only [answerInType] at h <;> rfl

/-- What waiting for a sensor can do: refuse, hold, or complete with the answer of this slot. -/
theorem awaitSensor_cases (k : Slot) (f : SensValue → State → Result) (s : State) :
    (∃ r, awaitSensor k f s = .refused r ∧
      (r = .answerForOtherSlot ∨ r = .pollAnswerWithoutPoll ∨ r = .acceptWithoutOffer)) ∨
    ((∀ j v rest, s.stim ≠ .sens j v :: rest) ∧ awaitSensor k f s = .next s.tick) ∨
    (∃ v rest, s.stim = .sens k v :: rest ∧ awaitSensor k f s = f v { s with stim := rest }) := by
  unfold awaitSensor
  split
  · rename_i j v rest hs
    by_cases hj : j = k
    · subst hj; exact .inr (.inr ⟨v, rest, hs, by simp⟩)
    · exact .inl ⟨_, by rw [if_neg hj], .inl rfl⟩
  · exact .inl ⟨_, rfl, .inr (.inl rfl)⟩
  · exact .inl ⟨_, rfl, .inr (.inl rfl)⟩
  · exact .inl ⟨_, rfl, .inr (.inr rfl)⟩
  · rename_i hs
    exact .inr (.inl ⟨by simp [hs], rfl⟩)
  · rename_i d rest hs
    exact .inr (.inl ⟨by simp [hs], by cases s; simp_all [State.tick, passSilent]⟩)
  · rename_i hs
    exact .inr (.inl ⟨by simp [hs], by cases s; simp_all [State.tick, passSilent]⟩)

/-- What waiting for an acceptance can do: refuse, hold, or go on. -/
theorem awaitAccept_cases (f : State → State) (s : State) :
    (∃ r, awaitAccept f s = .refused r ∧ (r = .answerWithoutRead ∨ r = .pollAnswerWithoutPoll)) ∨
    ((∀ rest, s.stim ≠ .txAccept :: rest) ∧ awaitAccept f s = .next s.tick) ∨
    (∃ rest, s.stim = .txAccept :: rest ∧ awaitAccept f s = .next (f { s with stim := rest })) := by
  unfold awaitAccept
  split
  · rename_i rest hs
    exact .inr (.inr ⟨rest, hs, rfl⟩)
  · exact .inl ⟨_, rfl, .inl rfl⟩
  · exact .inl ⟨_, rfl, .inr rfl⟩
  · exact .inl ⟨_, rfl, .inr rfl⟩
  · rename_i hs
    exact .inr (.inl ⟨by simp [hs], rfl⟩)
  · rename_i hs
    exact .inr (.inl ⟨by simp [hs], by cases s; simp_all [State.tick, passSilent]⟩)
  · rename_i hs
    exact .inr (.inl ⟨by simp [hs], by cases s; simp_all [State.tick, passSilent]⟩)

/-! ### The selector decode -/

/-- One selector position writes one bit of `sel`. -/
theorem decodePosition_eq (data : List Byte) (s : State) (k : Slot) :
    decodePosition data s k = s.setSel k (data[k.index]? == some Config.sentinel) := by
  unfold decodePosition
  split
  · rename_i b hb
    by_cases h : b = Config.sentinel
    · simp [hb, h, requestSlot]
    · simp [hb, if_neg h, skipSlot, beq_eq_false_iff_ne.mpr h]
  · rename_i hb
    simp [hb, absentSlot]

/-- The selector decode writes `sel` and nothing else. -/
theorem decodeSelectors_frame (data : List Byte) (s : State) :
    decodeSelectors data s = { s with sel := (decodeSelectors data s).sel } := by
  have ign : ∀ (l : List Byte) (t : State), l.foldl (fun s _ => ignoreByte s) t = t := by
    intro l; induction l with
    | nil => intro t; rfl
    | cons _ _ ih => intro t; exact ih t
  simp only [decodeSelectors, ign, Slot.all, List.foldl, decodePosition_eq]
  rfl

/-- The bits the selector decode leaves. -/
theorem decodeSelectors_selected (data : List Byte) (s : State) (k : Slot) :
    (decodeSelectors data s).selected k = (data[k.index]? == some Config.sentinel) := by
  have ign : ∀ (l : List Byte) (t : State), l.foldl (fun s _ => ignoreByte s) t = t := by
    intro l; induction l with
    | nil => intro t; rfl
    | cons _ _ ih => intro t; exact ih t
  simp only [decodeSelectors, ign, Slot.all, List.foldl, decodePosition_eq]
  cases k <;> simp

/-! ### The words of the claims -/

/-- A slot is requested exactly where its position holds the sentinel. -/
theorem requested_eq (data : List Byte) (k : Slot) : requested data k = (data[k.index]? == some Config.sentinel) := by
  unfold requested
  by_cases h : k.index < data.length
  · have := Slot.index_lt k
    simp only [Config.sentinel, Bool.and_eq_right_iff_imp, decide_eq_true_eq]
    omega
  · simp [List.getElem?_eq_none (Nat.le_of_not_lt h)]

/-- Bit k of the selection is the request of slot k. -/
theorem selectionOf_read (data : List Byte) (k : Slot) : (selectionOf data).getLsbD k.index = requested data k := by
  have h : ∀ a b c d e f : Bool, ∀ k : Fin 6,
      ((BitVec.ofBoolListLE [a, b, c, d, e, f]).setWidth 6).getLsbD k = [a, b, c, d, e, f][k] := by decide
  have := h (requested data .methane) (requested data .co2) (requested data .co) (requested data .temperature)
    (requested data .humidity) (requested data .pressure) ⟨k.index, Slot.index_lt k⟩
  cases k <;> exact this

/-- The selector decode leaves the selection of the payload. -/
theorem decodeSelectors_sel (data : List Byte) (s : State) : (decodeSelectors data s).sel = selectionOf data :=
  sel_ext fun k => by
    rw [selectionOf_read, requested_eq]
    exact decodeSelectors_selected data s k

end Sys2Proof.Machine
end

