-- ==== Sys2Proof/Laws/Exec.lean ====
section
/-! SUPPORT. Laws/Exec.lean: what each operation can have done when it answers a next state, said once per operation (or per
group of operations of one shape). -/

namespace Sys2Proof.Machine

variable {s t : State}

theorem fillers_ne_nil (k : Slot) (v : Byte) : List.replicate k.width v ≠ [] := by
  cases k <;> simp [Slot.width]

/-- The operations of format SLOTOP are the six encode and the six fill operations. -/
theorem slotop_cases (i : Instr) (h : i.format = .slotop) : ∃ k, i = .encOf k ∨ i = .fillOf k := by
  cases i <;> simp only [Instr.format, reduceCtorEq] at h
  exacts [⟨.methane, .inl rfl⟩, ⟨.co2, .inl rfl⟩, ⟨.co, .inl rfl⟩, ⟨.temperature, .inl rfl⟩, ⟨.humidity, .inl rfl⟩,
    ⟨.pressure, .inl rfl⟩, ⟨.methane, .inr rfl⟩, ⟨.co2, .inr rfl⟩, ⟨.co, .inr rfl⟩, ⟨.temperature, .inr rfl⟩,
    ⟨.humidity, .inr rfl⟩, ⟨.pressure, .inr rfl⟩]

theorem execPollNone_next (h : exec .pollNone s = .next t) : s.st = .idle ∧ t = s.polled := by
  simp only [exec, execPollNone] at h
  split at h
  · rename_i hs
    cases h
    exact ⟨hs, by rw [← hs]; rfl⟩
  · cases h

theorem execRxDiscard_next {id : CanId} {data : List Byte} (h : exec (.rxDiscard id data) s = .next t) :
    s.st = .idle ∧ t = s.polled := by
  simp only [exec, execRxDiscard] at h
  split at h
  · rename_i hs
    cases h
    exact ⟨hs, by rw [← hs]; rfl⟩
  · cases h

theorem execRxRequest_next {data : List Byte} (h : exec (.rxRequest data) s = .next t) :
    s.st = .idle ∧ t = { s with
      sel := selectionOf data, cur := 0, st := .asm .methane, stim := passPoll s.stim, log := s.log ++ [.polled data] } := by
  simp only [exec, execRxRequest] at h
  split at h
  · rename_i hs
    rw [decodeSelectors_frame, decodeSelectors_sel] at h
    cases h
    exact ⟨hs, rfl⟩
  · cases h

theorem execFill_next {k : Slot} (h : exec (.fillOf k) s = .next t) :
    s.st = .asm k ∧ writeSlot k (List.replicate k.width (fillerOf k)) s.tick = .next t := by
  rw [exec_fillOf, fillSlot] at h
  split at h
  · rcases quietStep_cases (writeSlot k (List.replicate k.width (fillerOf k))) s with ⟨r, h', _⟩ | h'
    · rw [h'] at h; cases h
    · exact ⟨by assumption, h' ▸ h⟩
  · cases h

/-- An encode operation that answers a next state has issued its read, held, or written its slot's bytes. -/
theorem execEnc_next {k : Slot} (h : exec (.encOf k) s = .next t) :
    (s.st = .asm k ∧ t = (s.tick.emit (.read k)).goto (.wait k)) ∨
    (s.st = .wait k ∧ (∀ j v rest, s.stim ≠ .sens j v :: rest) ∧ t = s.tick) ∨
    (s.st = .wait k ∧ ∃ v rest bytes n, s.stim = .sens k v :: rest ∧ bytes.length = k.width ∧ n ≤ 1 ∧
      (k.width = 2 → n = 0) ∧ writeSlot k bytes { s with stim := rest, draws := s.draws + n } = .next t) := by
  rw [exec_encOf, encodeSlot] at h
  split at h
  · rename_i hs
    rcases quietStep_cases (fun s => .next ((s.emit (.read k)).goto (.wait k))) s with ⟨r, h', _⟩ | h'
    · rw [issueRead, h'] at h; cases h
    · rw [issueRead, h'] at h; cases h; exact .inl ⟨hs, rfl⟩
  · split at h
    · rename_i hs
      rcases awaitSensor_cases k (completionOf k) s with ⟨r, h', _⟩ | ⟨hn, h'⟩ | ⟨v, rest, he, h'⟩
      · rw [h'] at h; cases h
      · rw [h'] at h; cases h; exact .inr (.inl ⟨hs, hn, rfl⟩)
      · rw [h'] at h
        rcases completionOf_cases k v { s with stim := rest } with ⟨r, h2, _⟩ | ⟨bytes, n, hl, h1, hw, h2⟩
        · rw [h2] at h; cases h
        · rw [h2] at h; exact .inr (.inr ⟨hs, v, rest, bytes, n, he, hl, h1, hw, h⟩)
    · cases h

/-- After F1: the frame is logged and the sequencer goes to TX2 or IDLE by byte 8. -/
theorem afterF1_eq (s : State) : afterF1 s =
    { s with st := if s.buf.read 8 = 0 then .idle else .tx2, log := s.log ++ [.sent (frame1 s.buf)] } := by
  unfold afterF1 secondFrame
  by_cases h : s.buf.read 8 = 0
  · simp only [Config.f1Len, h, if_true]; rfl
  · rw [if_neg h]; simp only [Config.f1Len, bne_iff_ne.mpr h, if_true]; rfl

theorem execTxF1_next (h : exec .txF1 s = .next t) : s.st = .tx1 ∧
    (((∀ rest, s.stim ≠ .txAccept :: rest) ∧ t = s.tick) ∨
      ∃ rest, s.stim = .txAccept :: rest ∧ t = afterF1 { s with stim := rest }) := by
  simp only [exec, execTxF1] at h
  split at h
  · refine ⟨by assumption, ?_⟩
    rcases awaitAccept_cases afterF1 s with ⟨r, h', _⟩ | ⟨hn, h'⟩ | ⟨rest, he, h'⟩
    · rw [h'] at h; cases h
    · rw [h'] at h; cases h; exact .inl ⟨hn, rfl⟩
    · rw [h'] at h; cases h; exact .inr ⟨rest, he, rfl⟩
  · cases h

theorem execTxF2_next (h : exec .txF2 s = .next t) : s.st = .tx2 ∧
    (((∀ rest, s.stim ≠ .txAccept :: rest) ∧ t = s.tick) ∨
      ∃ rest, s.stim = .txAccept :: rest ∧ t = afterF2 { s with stim := rest }) := by
  simp only [exec, execTxF2] at h
  split at h
  · refine ⟨by assumption, ?_⟩
    rcases awaitAccept_cases afterF2 s with ⟨r, h', _⟩ | ⟨hn, h'⟩ | ⟨rest, he, h'⟩
    · rw [h'] at h; cases h
    · rw [h'] at h; cases h; exact .inl ⟨hn, rfl⟩
    · rw [h'] at h; cases h; exact .inr ⟨rest, he, rfl⟩
  · cases h

theorem execNoF2_next (h : exec .noF2 s = .next t) : s.st = .tx1 ∧ s.buf.read 8 = 0 ∧ t = s.goto .idle := by
  simp only [exec, execNoF2] at h
  split at h
  · rename_i hs
    cases h
    exact ⟨hs.1, by simpa [secondFrame, Config.f1Len] using hs.2, rfl⟩
  · cases h

end Sys2Proof.Machine
end

