-- ==== Sys2Proof/Laws/PerInstr.lean ====
section
/-! SUPPORT. Laws/PerInstr.lean: a family of facts about every operation as syntax: the bytes of a well-formed operation fit
the longest word, two head bytes and eight of payload (30_encoding.md R38), which is the padding of `decodeTableWord`. -/

namespace Sys2Proof.Laws.FitsLongest

/-- The bytes of a well-formed operation are at most ten. -/
def Statement (i : Instr) : Prop := i.wf = true → i.encode.length ≤ 10

/-- A frame's bytes are its two head bytes and its payload. -/
theorem frame_length (id : CanId) (data : List Byte) : (encodeFrame id data).length = data.length + 2 := rfl

theorem pollNone : Statement .pollNone := fun _ => by simp [Instr.encode]

theorem frame_fits (id : CanId) {data : List Byte} (h : data.length ≤ 8) : (encodeFrame id data).length ≤ 10 := by
  rw [frame_length]
  omega

theorem rxDiscard (id : CanId) (data : List Byte) : Statement (.rxDiscard id data) := fun h =>
  frame_fits id (of_decide_eq_true (Bool.and_eq_true_iff.mp h).2)

theorem rxRequest (data : List Byte) : Statement (.rxRequest data) := fun h => frame_fits Config.reqId (of_decide_eq_true h)

theorem selReq (k : Slot) : Statement (.selReq k) := fun _ => by simp [Instr.encode, encodeSelector]

theorem selSkip (k : Slot) (b : Byte) : Statement (.selSkip k b) := fun _ => by simp [Instr.encode, encodeSelector]

theorem selAbsent (k : Slot) : Statement (.selAbsent k) := fun _ => by simp [Instr.encode, encodeSelector]

theorem selIgnored (p : Nat) (b : Byte) : Statement (.selIgnored p b) := fun _ => by simp [Instr.encode, encodeSelector]

theorem encMethane : Statement .encMethane := fun _ => by simp [Instr.encode, encodeSlotop]

theorem encCo2 : Statement .encCo2 := fun _ => by simp [Instr.encode, encodeSlotop]

theorem encCo : Statement .encCo := fun _ => by simp [Instr.encode, encodeSlotop]

theorem encTemp : Statement .encTemp := fun _ => by simp [Instr.encode, encodeSlotop]

theorem encHum : Statement .encHum := fun _ => by simp [Instr.encode, encodeSlotop]

theorem encPres : Statement .encPres := fun _ => by simp [Instr.encode, encodeSlotop]

theorem fillMethane : Statement .fillMethane := fun _ => by simp [Instr.encode, encodeSlotop]

theorem fillCo2 : Statement .fillCo2 := fun _ => by simp [Instr.encode, encodeSlotop]

theorem fillCo : Statement .fillCo := fun _ => by simp [Instr.encode, encodeSlotop]

theorem fillTemp : Statement .fillTemp := fun _ => by simp [Instr.encode, encodeSlotop]

theorem fillHum : Statement .fillHum := fun _ => by simp [Instr.encode, encodeSlotop]

theorem fillPres : Statement .fillPres := fun _ => by simp [Instr.encode, encodeSlotop]

theorem txF1 : Statement .txF1 := fun _ => by simp [Instr.encode, encodeTxId]

theorem txF2 : Statement .txF2 := fun _ => by simp [Instr.encode, encodeTxId]

theorem noF2 : Statement .noF2 := fun _ => by simp [Instr.encode]

end Sys2Proof.Laws.FitsLongest
end

