-- ==== Sys2Proof/Laws/Step.lean ====
section
/-! SUPPORT. Laws/Step.lean: what a step can do, said once per sequencer state. -/

namespace Sys2Proof.Machine

theorem decode_encodeSlotop (k : Slot) (b : Bool) :
    decode .slotop (encodeSlotop k b) = .ok (if b then .encOf k else .fillOf k, []) := by
  cases k <;> cases b <;> decide

/-- The head of a frame's word gives back the identifier. -/
theorem headId_encode (id : CanId) (n : Nat) :
    headId (id.extractLsb' 0 8) (0#1 ++ BitVec.ofNat 4 n ++ id.extractLsb' 8 3) = id := by
  unfold headId
  ext i hi
  simp only [BitVec.getElem_append, BitVec.getElem_extractLsb', BitVec.getLsbD_extractLsb', BitVec.getLsbD_append]
  by_cases h : i < 8
  · simp [h, BitVec.getLsbD_eq_getElem hi]
  · simp [h, BitVec.getLsbD_eq_getElem hi, show i - 8 < 3 by omega, show 8 + (i - 8) = i by omega]

theorem headBit_encode (id : CanId) (n : Nat) :
    (0#1 ++ BitVec.ofNat 4 n ++ id.extractLsb' 8 3).getLsbD 7 = false := by
  have h : ∀ (y : BitVec 4) (x : BitVec 3), (0#1 ++ y ++ x).getLsbD 7 = false := by decide
  exact h _ _

theorem headLen_encode (id : CanId) {n : Nat} (h : n ≤ 8) :
    headLen (0#1 ++ BitVec.ofNat 4 n ++ id.extractLsb' 8 3) = n := by
  have h' : ∀ (n : Fin 9) (x : BitVec 3), headLen (0#1 ++ BitVec.ofNat 4 n.val ++ x) = n.val := by decide
  exact h' ⟨n, by omega⟩ _

/-- A frame of the RX port's type decodes to its class. -/
theorem decode_encodeFrame (id : CanId) (data : List Byte) (h : data.length ≤ 8) :
    decode .rxf (encodeFrame id data) = .ok (classifyFrame id data, []) := by
  simp only [decode, encodeFrame, decodeRxf]
  simp only [headLen_encode id h, headId_encode, headBit_encode, Config.rxMaxLen]
  simp [show ¬ 8 < data.length by omega]

variable {s : State}

/-- Without a reset, a core with no fault runs what it fetches. -/
theorem step_fetched (hr : resetNow s = none) (hf : s.flt = []) {fmt : Format} {bytes rest : List Byte} {i : Instr}
    (h : fetch s = .ok (fmt, bytes)) (hd : decode fmt bytes = .ok (i, rest)) : step s = exec i s := by
  simp [step, hr, halted, hf, h, hd]

theorem step_asm (hr : resetNow s = none) (hf : s.flt = []) {k : Slot} (h : s.st = .asm k) :
    step s = exec (if s.selected k then .encOf k else .fillOf k) s :=
  step_fetched hr hf (by simp only [fetch, h]) (decode_encodeSlotop k _)

theorem step_wait (hr : resetNow s = none) (hf : s.flt = []) {k : Slot} (h : s.st = .wait k) :
    step s = exec (.encOf k) s :=
  step_fetched hr hf (by simp only [fetch, h]) (decode_encodeSlotop k true)

theorem step_tx1 (hr : resetNow s = none) (hf : s.flt = []) (h : s.st = .tx1) : step s = exec .txF1 s :=
  step_fetched hr hf (fmt := .txf) (bytes := encodeTxId Config.rsp1Id) (by simp only [fetch, h]) (rest := []) (by decide)

theorem step_tx2 (hr : resetNow s = none) (hf : s.flt = []) (h : s.st = .tx2) : step s = exec .txF2 s :=
  step_fetched hr hf (fmt := .txf) (bytes := encodeTxId Config.rsp2Id) (by simp only [fetch, h]) (rest := []) (by decide)

theorem step_idle_none (hr : resetNow s = none) (hf : s.flt = []) (h : s.st = .idle)
    (he : s.stim = [] ∨ ∃ rest, s.stim = .rxNone :: rest) : step s = exec .pollNone s := by
  rcases he with he | ⟨rest, he⟩ <;>
    exact step_fetched hr hf (fmt := .rxf) (bytes := []) (by simp only [fetch, h, he, fetchPoll]) (rest := []) (by decide)

/-- What the RX port makes of a frame. -/
theorem portFrame_cases (f : RxFrame) :
    (∃ r, portFrame f = .error r) ∨
    (f.len ≤ 8 ∧ f.id ≤ 0x7FF ∧ f.len ≤ f.data.length ∧ f.extended = false ∧ f.remote = false ∧
      portFrame f = .ok (BitVec.ofNat 11 f.id, f.data.take f.len)) := by
  unfold portFrame
  by_cases h1 : f.extended = true
  · exact .inl ⟨_, if_pos h1⟩
  by_cases h2 : f.remote = true
  · exact .inl ⟨_, (if_neg h1).trans (if_pos h2)⟩
  by_cases h3 : Config.rxMaxLen < f.len
  · exact .inl ⟨_, (if_neg h1).trans ((if_neg h2).trans (if_pos h3))⟩
  by_cases h4 : 0x7FF < f.id
  · exact .inl ⟨_, (if_neg h1).trans ((if_neg h2).trans ((if_neg h3).trans (if_pos h4)))⟩
  rw [if_neg h1, if_neg h2, if_neg h3, if_neg h4]
  by_cases h5 : f.data.length < f.len
  · exact .inl ⟨_, if_pos h5⟩
  · rw [if_neg h5]
    exact .inr ⟨Nat.le_of_not_lt h3, Nat.le_of_not_lt h4, Nat.le_of_not_lt h5, by simpa using h1, by simpa using h2, rfl⟩

theorem step_idle_frame (hr : resetNow s = none) (hf : s.flt = []) (h : s.st = .idle) {f : RxFrame}
    {rest : List PortEvent} (he : s.stim = .rx f :: rest) {id : CanId} {data : List Byte}
    (hp : portFrame f = .ok (id, data)) : step s = exec (classifyFrame id data) s := by
  have hl : data.length ≤ 8 := by
    rcases portFrame_cases f with ⟨r, hr'⟩ | ⟨h1, -, -, -, -, h'⟩
    · simp [hp] at hr'
    · rw [h', Except.ok.injEq, Prod.mk.injEq] at hp
      rw [← hp.2, List.length_take]; omega
  exact step_fetched hr hf (by simp only [fetch, h, he, fetchPoll, hp]) (decode_encodeFrame id data hl)

theorem step_idle_refused (hr : resetNow s = none) (hf : s.flt = []) (h : s.st = .idle) {r : Refusal}
    (hp : fetchPoll s.stim = .error r) : step s = .refused r := by
  simp [step, hr, halted, hf, fetch, h, hp]

/-- A core that has recorded a fault has no step but a reset. -/
theorem step_halted (hr : resetNow s = none) (hf : s.flt ≠ []) : ∃ r ∈ s.flt, step s = .fault r := by
  obtain ⟨r, rs, hs⟩ : ∃ r rs, s.flt = r :: rs := by
    cases h : s.flt with
    | nil => exact absurd h hf
    | cons r rs => exact ⟨r, rs, rfl⟩
  exact ⟨r, by simp [hs], by simp [step, hr, halted, hs]⟩

theorem step_reset {d : ResetDraw} {rest : List PortEvent} (h : s.stim = .reset d :: rest) :
    step s = .next (applyReset d { s with stim := rest }) := by
  simp [step, resetNow, h]

/-- What a step that answers a next state has done: a reset; or, without a reset and with no fault recorded, one operation,
the one the sequencer state and the events call for. -/
theorem step_next {t : State} (h : step s = .next t) :
    (∃ d rest, s.stim = .reset d :: rest ∧ t = applyReset d { s with stim := rest }) ∨
    (resetNow s = none ∧ s.flt = [] ∧
      ((s.st = .idle ∧ (s.stim = [] ∨ ∃ rest, s.stim = .rxNone :: rest) ∧ exec .pollNone s = .next t) ∨
       (s.st = .idle ∧ ∃ f rest, s.stim = .rx f :: rest ∧ f.inType ∧
          exec (classifyFrame (BitVec.ofNat 11 f.id) (f.data.take f.len)) s = .next t) ∨
       (∃ k, s.st = .asm k ∧ s.selected k = true ∧ exec (.encOf k) s = .next t) ∨
       (∃ k, s.st = .asm k ∧ s.selected k = false ∧ exec (.fillOf k) s = .next t) ∨
       (∃ k, s.st = .wait k ∧ exec (.encOf k) s = .next t) ∨
       (s.st = .tx1 ∧ exec .txF1 s = .next t) ∨ (s.st = .tx2 ∧ exec .txF2 s = .next t))) := by
  cases hr : resetNow s with
  | some s' =>
    obtain ⟨d, rest, he, rfl⟩ := resetNow_eq_some hr
    rw [step_reset he] at h
    cases h
    exact .inl ⟨d, rest, he, rfl⟩
  | none =>
    by_cases hf : s.flt = []
    · refine .inr ⟨rfl, hf, ?_⟩
      cases hs : s.st with
      | idle =>
        cases he : s.stim with
        | nil => rw [step_idle_none hr hf hs (.inl he)] at h; exact .inl ⟨rfl, .inl rfl, h⟩
        | cons e rest =>
          have hx : ∀ r, fetchPoll s.stim = .error r → False := fun r hp => by
            rw [step_idle_refused hr hf hs hp] at h; cases h
          cases e with
          | rxNone => rw [step_idle_none hr hf hs (.inr ⟨rest, he⟩)] at h; exact .inl ⟨rfl, .inr ⟨rest, rfl⟩, h⟩
          | rx f =>
            rcases portFrame_cases f with ⟨r, hp⟩ | ⟨h1, h2, h3, h4, h5, hp⟩
            · exact (hx r (by simp [he, fetchPoll, hp])).elim
            · rw [step_idle_frame hr hf hs he hp] at h
              exact .inr (.inl ⟨rfl, f, rest, rfl, ⟨h4, h5, h2, h1, h3⟩, h⟩)
          | sens k v => exact (hx _ (by rw [he]; rfl)).elim
          | txAccept => exact (hx _ (by rw [he]; rfl)).elim
          | silent => exact (hx _ (by rw [he]; rfl)).elim
          | reset d => exact absurd he (resetNow_eq_none.mp hr d rest)
      | asm k =>
        rw [step_asm hr hf hs] at h
        cases hk : s.selected k with
        | true => exact .inr (.inr (.inl ⟨k, rfl, hk, by simpa [hk] using h⟩))
        | false => exact .inr (.inr (.inr (.inl ⟨k, rfl, hk, by simpa [hk] using h⟩)))
      | wait k => rw [step_wait hr hf hs] at h; exact .inr (.inr (.inr (.inr (.inl ⟨k, rfl, h⟩))))
      | tx1 => rw [step_tx1 hr hf hs] at h; exact .inr (.inr (.inr (.inr (.inr (.inl ⟨rfl, h⟩)))))
      | tx2 => rw [step_tx2 hr hf hs] at h; exact .inr (.inr (.inr (.inr (.inr (.inr ⟨rfl, h⟩)))))
    · obtain ⟨r, _, h'⟩ := step_halted hr hf
      rw [h'] at h
      cases h

end Sys2Proof.Machine
end

