-- ==== Sys2Proof/Laws/Run.lean ====
section
/-! SUPPORT. Laws/Run.lean: a run of several steps, one step at a time. -/

namespace Sys2Proof.Machine

variable {s t : State}

theorem run_zero (s : State) : Host.Core.run Sys2Proof.core 0 s = .next s := rfl

theorem coreRun_next (M : Host.Core) (n : Nat) {s t : M.State} (h : M.step s = .next t) : M.run (n + 1) s = M.run n t := by
  simp [Host.Core.run, h]

theorem coreRun_fault (M : Host.Core) (n : Nat) {s : M.State} {r : M.Fault} (h : M.step s = .fault r) :
    M.run (n + 1) s = .fault r := by
  simp [Host.Core.run, h]

theorem coreRun_refused (M : Host.Core) (n : Nat) {s : M.State} {r : M.Refusal} (h : M.step s = .refused r) :
    M.run (n + 1) s = .refused r := by
  simp [Host.Core.run, h]

theorem run_next (n : Nat) (h : step s = .next t) :
    Host.Core.run Sys2Proof.core (n + 1) s = Host.Core.run Sys2Proof.core n t :=
  coreRun_next Sys2Proof.core n h

theorem run_fault (n : Nat) {r : Fault} (h : step s = .fault r) :
    Host.Core.run Sys2Proof.core (n + 1) s = .fault r :=
  coreRun_fault Sys2Proof.core n h

theorem run_refused (n : Nat) {r : Refusal} (h : step s = .refused r) :
    Host.Core.run Sys2Proof.core (n + 1) s = .refused r :=
  coreRun_refused Sys2Proof.core n h

/-- A run of `m` steps followed by one of `n`. -/
theorem run_trans {m n : Nat} {u : Result} (h : Host.Core.run Sys2Proof.core m s = .next t)
    (h' : Host.Core.run Sys2Proof.core n t = u) : Host.Core.run Sys2Proof.core (m + n) s = u := by
  induction m generalizing s with
  | zero =>
    rw [run_zero] at h
    cases h
    simpa using h'
  | succ m ih =>
    rw [Nat.succ_add]
    cases hs : step s with
    | next s' => rw [run_next _ hs] at h ⊢; exact ih h
    | fault r => rw [run_fault _ hs] at h; cases h
    | refused r => rw [run_refused _ hs] at h; cases h

/-- An invariant that every step keeps holds along every run. -/
theorem run_keeps {P : State → Prop} (hstep : ∀ s t, P s → step s = .next t → P t) {n : Nat} (hs : P s)
    (h : Host.Core.run Sys2Proof.core n s = .next t) : P t := by
  induction n generalizing s with
  | zero => rw [run_zero] at h; cases h; exact hs
  | succ n ih =>
    cases h' : step s with
    | next s' => rw [run_next _ h'] at h; exact ih (hstep s s' hs h') h
    | fault r => rw [run_fault _ h'] at h; cases h
    | refused r => rw [run_refused _ h'] at h; cases h

end Sys2Proof.Machine
end

