-- ==== Sys2Proof/Tests/Slice0.lean ====
section
/-! SUPPORT. Tests/Slice0.lean: small tests of the model, each with its source in spec/, and a witness for the hypotheses of
each obligation. Expected values are the tables of 95_test_vectors.md or are worked out from the cited rule. Tests on
readings are rational arithmetic, which `decide` hands to the kernel. -/

namespace Sys2Proof.Tests

open Sys2Proof Sys2Proof.Machine

/-! ### Helpers -/

/-- A core in a sequencer state, with the cursor and what the ports will do; everything else as after reset. -/
def coreIn (st : SeqState) (cur : Nat) (stim : List PortEvent) : State := { State.reset with st := st, cur := cur, stim := stim }

/-- The sequencer state, the cursor and the nine buffer bytes of a next state. -/
def outcome : Result → Option (SeqState × Nat × List Byte)
  | .next t => some (t.st, t.cur, readBytes t.buf 0 9)
  | _ => none

/-- The selection flags, the cursor and the sequencer state of a next state. -/
def decoded : Result → Option (BitVec 6 × Nat × SeqState)
  | .next t => some (t.sel, t.cur, t.st)
  | _ => none

/-- The effects and the sequencer state of a next state. -/
def logged : Result → Option (List Effect × SeqState)
  | .next t => some (t.log, t.st)
  | _ => none

/-- Why a step is refused. -/
def refusal : Result → Option Refusal
  | .refused r => some r
  | _ => none

/-- A data frame with exactly its bytes. -/
def frame (id : Nat) (data : List Byte) : RxFrame := { id := id, len := data.length, data := data }

/-- A polling core that receives a frame. -/
def receiving (f : RxFrame) : State := coreIn .idle 0 [.rx f]

/-- The operation a word decodes to. -/
def decodesTo (fmt : Format) (bytes : List Byte) : Option Instr :=
  match decode fmt bytes with
  | .ok (i, _) => some i
  | .error _ => none

/-- Why a word is rejected. -/
def rejected (fmt : Format) (bytes : List Byte) : Option DecodeError :=
  match decode fmt bytes with
  | .ok _ => none
  | .error e => some e

/-! ### Well-formedness: an ill-formed operation for each check -/

/-- 30_encoding.md R39: a discarded frame's identifier is not 0x1A4. -/
theorem test_wf_discardOfRequestId : (Instr.rxDiscard 0x1A4 []).wf = false := by decide

/-- 30_encoding.md R38: at most 8 payload bytes. -/
theorem test_wf_discardOfNineBytes : (Instr.rxDiscard 0x1A5 (List.replicate 9 0)).wf = false := by decide

/-- 30_encoding.md R38. -/
theorem test_wf_requestOfNineBytes : (Instr.rxRequest (List.replicate 9 0)).wf = false := by decide

/-- 30_encoding.md R41: a skipped byte is not 0x11. -/
theorem test_wf_skipOfSentinel : (Instr.selSkip .co2 0x11).wf = false := by decide

/-- 30_encoding.md R41: the ignored positions are 6 and 7. -/
theorem test_wf_ignoredPositions :
    (Instr.selIgnored 5 0).wf = false ∧ (Instr.selIgnored 6 0).wf = true ∧ (Instr.selIgnored 7 0).wf = true ∧
      (Instr.selIgnored 8 0).wf = false := by decide

/-- Frames of 0 and of 8 bytes are well-formed. -/
theorem test_wf_accepts :
    (Instr.rxRequest []).wf = true ∧ (Instr.rxRequest (List.replicate 8 0x11)).wf = true ∧
      (Instr.rxDiscard 0x5A4 []).wf = true ∧ (Instr.selSkip .pressure 0x10).wf = true := by decide

/-! ### Decoding: a word written out for each constructor (30_encoding.md R38 to R44; containers of log 11) -/

/-- The poll's answer `none` has no bits. -/
theorem test_decode_pollNone : decodesTo .rxf [] = some .pollNone := by decide

/-- R38, R39: id 101 1010 0100 (bit 10 set, vector D-5), len 0010. -/
theorem test_decode_rxDiscard :
    decodesTo .rxf [0b10100100, 0b00010101, 0x11, 0x11] = some (.rxDiscard 0b10110100100 [0x11, 0x11]) := by decide

/-- R38, R39: id 001 1010 0100, len 1000 (95_test_vectors.md P3, cycle C). -/
theorem test_decode_rxRequest :
    decodesTo .rxf [0b10100100, 0b01000001, 0, 0, 0, 0, 0, 0, 0x11, 0x11]
      = some (.rxRequest [0, 0, 0, 0, 0, 0, 0x11, 0x11]) := by decide

/-- R41: byte 0001 0001 at position 101. -/
theorem test_decode_selReq : decodesTo .sel [0b00010001, 0b00000101] = some (.selReq .pressure) := by decide

/-- R41: byte 0001 0000 at position 000. -/
theorem test_decode_selSkip : decodesTo .sel [0b00010000, 0b00000000] = some (.selSkip .methane 0x10) := by decide

/-- R41: position 011, past the frame's length. -/
theorem test_decode_selAbsent : decodesTo .sel [0b00000000, 0b00001011] = some (.selAbsent .temperature) := by decide

/-- R41: the sentinel at position 110 is ignored all the same. -/
theorem test_decode_selIgnored : decodesTo .sel [0b00010001, 0b00000110] = some (.selIgnored 6 0x11) := by decide

/-- R42: code 000 1. -/
theorem test_decode_encMethane : decodesTo .slotop [0b00000001] = some .encMethane := by decide

/-- R42: code 001 1. -/
theorem test_decode_encCo2 : decodesTo .slotop [0b00000011] = some .encCo2 := by decide

/-- R42: code 010 1. -/
theorem test_decode_encCo : decodesTo .slotop [0b00000101] = some .encCo := by decide

/-- R42: code 011 1. -/
theorem test_decode_encTemp : decodesTo .slotop [0b00000111] = some .encTemp := by decide

/-- R42: code 100 1. -/
theorem test_decode_encHum : decodesTo .slotop [0b00001001] = some .encHum := by decide

/-- R42: code 101 1. -/
theorem test_decode_encPres : decodesTo .slotop [0b00001011] = some .encPres := by decide

/-- R42: code 000 0. -/
theorem test_decode_fillMethane : decodesTo .slotop [0b00000000] = some .fillMethane := by decide

/-- R42: code 001 0. -/
theorem test_decode_fillCo2 : decodesTo .slotop [0b00000010] = some .fillCo2 := by decide

/-- R42: code 010 0. -/
theorem test_decode_fillCo : decodesTo .slotop [0b00000100] = some .fillCo := by decide

/-- R42: code 011 0. -/
theorem test_decode_fillTemp : decodesTo .slotop [0b00000110] = some .fillTemp := by decide

/-- R42: code 100 0. -/
theorem test_decode_fillHum : decodesTo .slotop [0b00001000] = some .fillHum := by decide

/-- R42: code 101 0. -/
theorem test_decode_fillPres : decodesTo .slotop [0b00001010] = some .fillPres := by decide

/-- R43: id 001 1010 0101. -/
theorem test_decode_txF1 : decodesTo .txf [0b10100101, 0b00000001] = some .txF1 := by decide

/-- R44: id 001 1010 0110. -/
theorem test_decode_txF2 : decodesTo .txf [0b10100110, 0b00000001] = some .txF2 := by decide

/-- R44: no frame. -/
theorem test_decode_noF2 : decodesTo .txf [] = some .noF2 := by decide

/-- Rejected RXF words: a length of 9, a missing byte, bit 15, one byte alone. -/
theorem test_decode_rejectsRxf :
    rejected .rxf (0b10100100 :: 0b01001001 :: List.replicate 9 0) = some .lengthOver8 ∧
    rejected .rxf [0b10100100, 0b00010001, 0x11] = some .payloadTruncated ∧
    rejected .rxf [0b10100100, 0b10000001] = some .reservedHeadBit ∧
    rejected .rxf [0b10100100] = some .headTruncated := by decide

/-- Rejected SEL words: position 6 past the length (no class, R41), an absent byte, reserved bits. -/
theorem test_decode_rejectsSel :
    rejected .sel [0, 0b00001110] = some .noSelectorClass ∧ rejected .sel [1, 0b00001011] = some .absentWithByte ∧
    rejected .sel [0, 0b00010000] = some .reservedSelectorBits ∧ rejected .sel [0x11] = some .selectorTruncated := by decide

/-- Rejected SLOTOP codes: 0xC to 0xF (R42), and a fifth bit. -/
theorem test_decode_rejectsSlotop :
    rejected .slotop [0xC] = some .slotopNeverFormed ∧ rejected .slotop [0xD] = some .slotopNeverFormed ∧
    rejected .slotop [0xE] = some .slotopNeverFormed ∧ rejected .slotop [0xF] = some .slotopNeverFormed ∧
    rejected .slotop [0x10] = some .reservedSlotopBits ∧ rejected .slotop [] = some .slotopTruncated := by decide

/-- Rejected TXF words: the request identifier, and a bit above the identifier. -/
theorem test_decode_rejectsTxf :
    rejected .txf [0b10100100, 0b00000001] = some .notAResponse ∧
    rejected .txf [0b10100101, 0b00001001] = some .notAResponse ∧ rejected .txf [0] = some .txTruncated := by decide

/-- The opcode table's rows: its bits, numbered from the first byte. -/
theorem test_tableWords :
    decodeTableWord 0 0 = some .pollNone ∧ decodeTableWord 16 0x1A0 = some (.rxDiscard 0x1A0 []) ∧
    decodeTableWord 16 0x1A4 = some (.rxRequest []) ∧ decodeTableWord 8 0x11 = some (.selReq .methane) ∧
    decodeTableWord 8 0x5 = some .encCo ∧ decodeTableWord 16 0x1A5 = some .txF1 ∧
    decodeTableWord 16 0x1A6 = some .txF2 := by decide

/-! ### The request decoder (95_test_vectors.md 2.1) -/

/-- D-1. -/
theorem test_pollNone : decoded (step { coreIn .idle 0 [.rxNone] with sel := 0b101010 }) = some (0b101010, 0, .idle) := by decide

/-- D-3: the core's own F2 identifier. -/
theorem test_discardsOwnFrame :
    decoded (step { receiving (frame 0x1A6 [0x11]) with sel := 0b100000 }) = some (0b100000, 0, .idle) := by decide

/-- D-5: bit 10 of the identifier counts. -/
theorem test_discardsHighIdBit :
    decoded (step (receiving (frame 0x5A4 [0x11, 0x11, 0x11, 0x11, 0x11, 0x11]))) = some (0, 0, .idle) := by decide

/-- D-9: only 0x11 requests. `sel[4]` is bit 4. -/
theorem test_request_onlySentinel :
    decoded (step { receiving (frame 0x1A4 [0x10, 0x12, 0x01, 0xFF, 0x11, 0x00]) with sel := 0b111111, cur := 9 })
      = some (0b010000, 0, .asm .methane) := by decide

/-- D-14: the positions past 5 are ignored. -/
theorem test_request_ignoresTail :
    decoded (step (receiving (frame 0x1A4 [0, 0, 0, 0, 0, 0, 0x11, 0x11]))) = some (0, 0, .asm .methane) := by decide

/-- D-13: position 5 is absent, and stale bytes past the length are not read. -/
theorem test_selAbsent_staleBytes :
    decoded (step (receiving { id := 0x1A4, len := 5, data := List.replicate 8 0x11 })) = some (0b011111, 0, .asm .methane) := by
  decide

/-- R53: `sel[3] <- 1`. -/
theorem test_selReq : decoded (exec (.selReq .temperature) (coreIn .idle 0 [])) = some (0b001000, 0, .idle) := by decide

/-- R54: `sel[3] <- 0`. -/
theorem test_selSkip :
    decoded (exec (.selSkip .temperature 0x12) { coreIn .idle 0 [] with sel := 0b111111 }) = some (0b110111, 0, .idle) := by decide

/-- R55: `sel[5] <- 0`. -/
theorem test_selAbsent :
    decoded (exec (.selAbsent .pressure) { coreIn .idle 0 [] with sel := 0b111111 }) = some (0b011111, 0, .idle) := by decide

/-- R56: nothing. -/
theorem test_selIgnored :
    decoded (exec (.selIgnored 6 0x11) { coreIn .idle 0 [] with sel := 0b000001 }) = some (0b000001, 0, .idle) := by decide

/-- D-16 and 60_exceptions.md R84: out-of-type frames. -/
theorem test_refusedFrames :
    refusal (step (receiving (frame 0x1A4 (List.replicate 9 0x11)))) = some .frameLengthOver8 ∧
    refusal (step (receiving (frame 0x800 []))) = some .frameIdOver11Bits ∧
    refusal (step (receiving { frame 0x1A4 [] with extended := true })) = some .frameExtended ∧
    refusal (step (receiving { frame 0x1A4 [] with remote := true })) = some .frameRemote := by decide

/-! ### The encoders (95_test_vectors.md 2.2 to 2.4) -/

/-- 2.3. -/
theorem test_w16 :
    [0, 1, 255, 256, 300, 415, 4660, 65280, 65535].map w16
      = [[0x00, 0x00], [0x00, 0x01], [0x00, 0xFF], [0x01, 0x00], [0x01, 0x2C], [0x01, 0x9F], [0x12, 0x34], [0xFF, 0x00],
         [0xFF, 0xFF]] := by decide

/-- 2.2, the values from 0 up. -/
theorem test_t8_up :
    ([0, 999/1000, 1, 217/10, 2199/100, 984/10, 101325/1000, 255, 2559/10, 256, 3002/10, 5115/10, 10000000000].map
        fun x => t8 0xAA (.finite x))
      = [0x00, 0x00, 0x01, 0x15, 0x15, 0x62, 0x65, 0xFF, 0xFF, 0x00, 0x2C, 0xFF, 0x00] := by decide +kernel

/-- 2.2, the values below 0. -/
theorem test_t8_down :
    ([-1/2, -999/1000, -1, -37/10, -5, -256].map fun x => t8 0xAA (.finite x))
      = [0x00, 0x00, 0xFF, 0xFD, 0xFB, 0x00] := by decide +kernel

/-- 2.4, the pairs. -/
theorem test_means :
    ([(20, 23), (217/10, 217/10), (-1, 1/2), (-3, -44/10), (224/10, 231/10), (452/10, 469/10), (40, 43), (100, 100),
        (300, 3004/10)].map fun p : Rat × Rat => t8 0xAA (pMean .exact (.finite p.1) (.finite p.2)))
      = [0x15, 0x15, 0x00, 0xFD, 0x16, 0x2E, 0x29, 0x64, 0x2C] := by decide +kernel

/-- 2.4, the pressures. -/
theorem test_kpa :
    ([98400, 101325, 999, 1000, 255999, 256000, -500].map fun p => t8 0xAA (pKpa .exact (.finite p)))
      = [0x62, 0x65, 0x00, 0x01, 0xFF, 0x00, 0x00] := by decide +kernel

/-! ### The slot operations (95_test_vectors.md 2.5; a byte no one has written reads 00, log 4) -/

/-- The issue step (41_field_encode.md R63). -/
theorem test_encMethane_issue :
    logged (step { coreIn (.asm .methane) 0 [] with sel := 0b000001 }) = some ([.read .methane], .wait .methane) := by decide

theorem test_encMethane :
    outcome (exec .encMethane (coreIn (.wait .methane) 0 [.sens .methane (.wide 300)]))
      = some (.asm .co2, 2, [0x01, 0x2C, 0, 0, 0, 0, 0, 0, 0]) := by decide

theorem test_encCo2 :
    outcome (exec .encCo2 (coreIn (.wait .co2) 2 [.sens .co2 (.wide 415)]))
      = some (.asm .co, 4, [0, 0, 0x01, 0x9F, 0, 0, 0, 0, 0]) := by decide

theorem test_encCo :
    outcome (exec .encCo (coreIn (.wait .co) 4 [.sens .co (.wide 4660)]))
      = some (.asm .temperature, 6, [0, 0, 0, 0, 0x12, 0x34, 0, 0, 0]) := by decide

theorem test_encTemp :
    outcome (exec .encTemp (coreIn (.wait .temperature) 6 [.sens .temperature (.pair (.finite 20) (.finite 23))]))
      = some (.asm .humidity, 7, [0, 0, 0, 0, 0, 0, 0x15, 0, 0]) := by decide +kernel

theorem test_encHum :
    outcome (exec .encHum (coreIn (.wait .humidity) 7
        [.sens .humidity (.pair (.finite (452 / 10)) (.finite (469 / 10)))]))
      = some (.asm .pressure, 8, [0, 0, 0, 0, 0, 0, 0, 0x2E, 0]) := by decide +kernel

theorem test_encPres :
    outcome (exec .encPres (coreIn (.wait .pressure) 8 [.sens .pressure (.single (.finite 98400))]))
      = some (.tx1, 9, [0, 0, 0, 0, 0, 0, 0, 0, 0x62]) := by decide +kernel

/-- R58: a non-finite reading completes and takes one free byte; the byte itself is not tested, no value is expected. -/
theorem test_encPres_nan :
    (match exec .encPres (coreIn (.wait .pressure) 8 [.sens .pressure (.single (.nonFinite .nan))]) with
     | .next t => (t.st, t.cur, t.draws)
     | _ => (.idle, 0, 0)) = (.tx1, 9, 1) := by decide

/-- 60_exceptions.md R84, last bullet: in ASM(k) no read is outstanding. The issue takes no early answer, and neither does a
fill. -/
theorem test_refusedEarlyAnswer :
    refusal (step { coreIn (.asm .co) 4 [.sens .co (.wide 1)] with sel := 0b000100 }) = some .answerWithoutRead ∧
    refusal (step (coreIn (.asm .co) 4 [.sens .temperature (.pair (.finite 1) (.finite 1))])) = some .answerWithoutRead := by decide

/-- 60_exceptions.md R84: the wide reading 65536, and another slot's answer. -/
theorem test_refusedAnswers :
    refusal (step (coreIn (.wait .co) 4 [.sens .co (.wide 65536)])) = some .wideReadingOutOfRange ∧
    refusal (step (coreIn (.wait .co) 4 [.sens .co2 (.wide 1)])) = some .answerForOtherSlot ∧
    refusal (step (coreIn (.wait .co) 4 [.sens .co (.single (.finite 1))])) = some .answerOfWrongType ∧
    refusal (step (coreIn .tx1 9 [.sens .co (.wide 1)])) = some .answerWithoutRead := by decide

theorem test_fillMethane :
    outcome (exec .fillMethane (coreIn (.asm .methane) 0 [])) = some (.asm .co2, 2, [0xFF, 0xFF, 0, 0, 0, 0, 0, 0, 0]) := by decide

theorem test_fillCo2 :
    outcome (exec .fillCo2 (coreIn (.asm .co2) 2 [])) = some (.asm .co, 4, [0, 0, 0xFF, 0xFF, 0, 0, 0, 0, 0]) := by decide

theorem test_fillCo :
    outcome (exec .fillCo (coreIn (.asm .co) 4 [])) = some (.asm .temperature, 6, [0, 0, 0, 0, 0xFF, 0xFF, 0, 0, 0]) := by decide

theorem test_fillTemp :
    outcome (exec .fillTemp (coreIn (.asm .temperature) 6 [])) = some (.asm .humidity, 7, [0, 0, 0, 0, 0, 0, 0xFF, 0, 0]) := by
  decide

theorem test_fillHum :
    outcome (exec .fillHum (coreIn (.asm .humidity) 7 [])) = some (.asm .pressure, 8, [0, 0, 0, 0, 0, 0, 0, 0xFF, 0]) := by decide

theorem test_fillPres :
    outcome (exec .fillPres (coreIn (.asm .pressure) 8 [])) = some (.tx1, 9, [0, 0, 0, 0, 0, 0, 0, 0, 0xFF]) := by decide

/-- R77: FILL_PRES with `cur = 9` records the fault and keeps `st`. -/
theorem test_overrun :
    (match exec .fillPres (coreIn (.asm .pressure) 9 []) with
     | .next t => (t.flt, t.st, t.cur)
     | _ => ([], .idle, 0)) = ([.bufferOverrun], .asm .pressure, 9) := by decide

/-- A write keeps the canonical form: writing what an unlisted byte reads as removes the cell. -/
theorem test_writeCanonical :
    Memory.write [(2, 0x9F)] 2 0x00 = [] ∧ Memory.write [(2, 0x9F)] 0 0x01 = [(0, 0x01), (2, 0x9F)] := by decide

/-! ### The dispatcher (95_test_vectors.md 2.6) -/

/-- The buffer of L1-2: eight fillers and byte 8. -/
def packed (b8 : Byte) : Memory := bufferFrom 0 (List.replicate 8 0xFF ++ [b8])

/-- Row 62: F1 is sent, F2 becomes due. -/
theorem test_txF1 :
    logged (exec .txF1 { coreIn .tx1 9 [.txAccept] with buf := packed 0x62 })
      = some ([.sent ⟨0x1A5, 8, [0xFF, 0xFF, 0xFF, 0xFF, 0xFF, 0xFF, 0xFF, 0xFF]⟩], .tx2) := by decide

/-- Row 00: the cycle ends with F1. -/
theorem test_txF1_withholdsF2 :
    logged (exec .txF1 { coreIn .tx1 9 [.txAccept] with buf := packed 0x00 })
      = some ([.sent ⟨0x1A5, 8, [0xFF, 0xFF, 0xFF, 0xFF, 0xFF, 0xFF, 0xFF, 0xFF]⟩], .idle) := by decide

/-- Row 62: F2. -/
theorem test_txF2 :
    logged (exec .txF2 { coreIn .tx2 9 [.txAccept] with buf := packed 0x62 }) = some ([.sent ⟨0x1A6, 1, [0x62]⟩], .idle) := by decide

/-- R80. -/
theorem test_noF2 : logged (exec .noF2 { coreIn .tx1 9 [] with buf := packed 0x00 }) = some ([], .idle) := by decide

/-! ### Programs (95_test_vectors.md section 3) -/

/-- The lines of P2's cycle: three fills and the issue for slot 3 come before its answer, an issue before each later one. -/
theorem test_programEvents :
    programEvents 0 [.rxNone, .rx (requestOf [.temperature, .humidity, .pressure]),
        .sens .temperature (.pair (.finite (224 / 10)) (.finite (231 / 10))),
        .sens .humidity (.pair (.finite 40) (.finite 43)), .sens .pressure (.single (.finite 999)), .txAccept]
      = [.rxNone, .rx (requestOf [.temperature, .humidity, .pressure]), .silent, .silent, .silent, .silent,
        .sens .temperature (.pair (.finite (224 / 10)) (.finite (231 / 10))), .silent,
        .sens .humidity (.pair (.finite 40) (.finite 43)), .silent, .sens .pressure (.single (.finite 999)), .txAccept] := by
  decide +kernel

/-! ### step on a placed word, from reset -/

/-- A placed request runs as RX_REQUEST. -/
theorem test_placed_request : decoded (step (State.reset.withFetchWord 16 0x1A4)) = some (0, 0, .asm .methane) := by decide

/-- A placed encode word issues its read. -/
theorem test_placed_encode : logged (step (State.reset.withFetchWord 8 0x5)) = some ([.read .co], .wait .co) := by decide

/-- A placed fill word fills its slot. -/
theorem test_placed_fill :
    outcome (step (State.reset.withFetchWord 8 0x4)) = some (.asm .temperature, 6, [0, 0, 0, 0, 0xFF, 0xFF, 0, 0, 0]) := by decide

/-- A placed F2 word sends F2; its byte is the reset buffer's (log 3, log 4). -/
theorem test_placed_txF2 : logged (step (State.reset.withFetchWord 16 0x1A6)) = some ([.sent ⟨0x1A6, 1, [0]⟩], .idle) := by decide

/-! ### Witnesses: concrete states and operands that meet the hypotheses of each obligation, clause by clause -/

/-- `State.Inv` of a concrete state, by a finite check of the fillers. -/
theorem inv_of {s : State} (canonical : s.buf.wf = true) (noFault : s.flt = []) (layout : s.LayoutOk)
    (fillers : ∀ k ∈ Slot.all, k.index < assembled s.st → s.selected k = false →
      ∀ a ∈ List.range' k.offset k.width, s.buf.read a = fillerOf k) : s.Inv where
  canonical := canonical
  noFault := noFault
  layout := layout
  fillers k hk hs a ha := by
    refine fillers k (by cases k <;> decide) hk hs a ?_
    rw [List.mem_range'_1]
    exact ha

/-- Polling, with a request of 8 bytes next; the registers hold an earlier cycle's values. -/
def idleCore : State :=
  { coreIn .idle 9 [.rx (frame 0x1A4 [0, 0x11, 0, 0, 0, 0, 0x11, 0x11])] with sel := 0b111111, buf := packed 0x62 }

/-- At slot 1, slot 0 filled, slot 1 requested. -/
def issueCore : State := { coreIn (.asm .co2) 2 [] with sel := 0b000010, buf := bufferFrom 0 [0xFF, 0xFF] }

/-- At slot 5, all the others filled, slot 5 not requested. -/
def fillCore : State := { coreIn (.asm .pressure) 8 [] with buf := bufferFrom 0 (List.replicate 8 0xFF) }

/-- Waiting for slot 0, the only one requested; the answer is the largest. -/
def waitCore : State := { coreIn (.wait .methane) 0 [.sens .methane (.wide 65535)] with sel := 0b000001 }

/-- F1 offered, nothing requested, the transport accepts. -/
def offer1Core : State := { coreIn .tx1 9 [.txAccept] with buf := packed 0xFF }

/-- F2 offered, the transport accepts. -/
def offer2Core : State := { coreIn .tx2 9 [.txAccept] with buf := packed 0xFF }

/-- No reset comes. -/
def noReset (s : State) : Prop := ∀ d r, s.stim ≠ .reset d :: r

theorem idleCore_inv : idleCore.Inv := inv_of (by decide) rfl (by show (9 : Nat) ≤ 9; decide) (by decide)
theorem issueCore_inv : issueCore.Inv := inv_of (by decide) rfl rfl (by decide)
theorem fillCore_inv : fillCore.Inv := inv_of (by decide) rfl rfl (by decide)
theorem waitCore_inv : waitCore.Inv := inv_of (by decide) rfl ⟨rfl, by decide⟩ (by decide)
theorem offer1Core_inv : offer1Core.Inv := inv_of (by decide) rfl rfl (by decide)
theorem offer2Core_inv : offer2Core.Inv := inv_of (by decide) rfl ⟨rfl, by decide⟩ (by decide)

theorem witness_ResetEventAbandonsCycle :
    ∃ (s : State) (d : ResetDraw) (rest : List PortEvent), s.stim = .reset d :: rest ∧ s.st = .wait .co ∧ d.cur = 9 :=
  ⟨coreIn (.wait .co) 4 [.reset ⟨0b111111, Vector.replicate 9 0xAB, 9⟩, .txAccept], _, _, rfl, rfl, rfl⟩

theorem witness_StepRunsDecodedOperation :
    noReset idleCore ∧ idleCore.flt = [] ∧
      fetch idleCore = .ok (.rxf, encodeFrame 0x1A4 [0, 0x11, 0, 0, 0, 0, 0x11, 0x11]) ∧
      decode .rxf (encodeFrame 0x1A4 [0, 0x11, 0, 0, 0, 0, 0x11, 0x11])
        = .ok (.rxRequest [0, 0x11, 0, 0, 0, 0, 0x11, 0x11], []) ∧
      (Instr.rxRequest [0, 0x11, 0, 0, 0, 0, 0x11, 0x11]).wf = true :=
  ⟨(by intro d r h; cases h), rfl, rfl, rfl, by decide⟩

theorem witness_StepRunsDecodedOperation_slot :
    noReset fillCore ∧ fillCore.flt = [] ∧ fetch fillCore = .ok (.slotop, [0xA]) ∧
      decode .slotop [0xA] = .ok (.fillPres, []) ∧ Instr.fillPres.wf = true :=
  ⟨(by intro d r h; cases h), rfl, rfl, rfl, by decide⟩

theorem witness_FrameClassifiedByIdentifierAlone :
    (receiving (frame 0x1A4 [])).st = .idle ∧ (frame 0x1A4 []).inType ∧ (frame 0x1A4 (List.replicate 8 0x11)).inType ∧
      (frame 0x000 []).inType ∧ (frame 0x7FF []).inType ∧ RxFrame.inType { id := 0x1A5, len := 0, data := [0x11] } := by
  simp [receiving, coreIn, frame, RxFrame.inType]

theorem witness_FrameClassifiedByIdentifierAlone_none :
    (coreIn .idle 0 []).st = .idle ∧ (coreIn .idle 0 []).flt = [] ∧ (coreIn .idle 0 []).stim = [] ∧
      (coreIn .idle 0 [.rxNone]).stim = .rxNone :: [] := ⟨rfl, rfl, rfl, rfl⟩

theorem witness_MultiplexerFormsSlotCode :
    issueCore.st = .asm .co2 ∧ fetch issueCore = .ok (.slotop, [0x3]) ∧
      fetch (coreIn (.asm .methane) 0 []) = .ok (.slotop, [0x0]) ∧
      fetch (coreIn (.wait .pressure) 8 []) = .ok (.slotop, [0xB]) ∧ 0xC ≤ 0xC ∧ 0xF ≤ 0xF :=
  ⟨rfl, rfl, rfl, rfl, by decide, by decide⟩

theorem witness_SequencerReachesItsOperation :
    (noReset issueCore ∧ issueCore.flt = [] ∧ issueCore.st = .asm .co2 ∧ issueCore.selected .co2 = true) ∧
    (noReset fillCore ∧ fillCore.flt = [] ∧ fillCore.st = .asm .pressure ∧ fillCore.selected .pressure = false) ∧
    (noReset waitCore ∧ waitCore.flt = [] ∧ waitCore.st = .wait .methane) ∧
    (noReset offer1Core ∧ offer1Core.flt = [] ∧ offer1Core.st = .tx1) ∧
    (noReset offer2Core ∧ offer2Core.flt = [] ∧ offer2Core.st = .tx2) := by
  refine ⟨⟨?_, rfl, rfl, by decide⟩, ⟨?_, rfl, rfl, by decide⟩, ⟨?_, rfl, rfl⟩, ⟨?_, rfl, rfl⟩, ⟨?_, rfl, rfl⟩⟩ <;>
    (intro d r h; cases h)

theorem witness_PollNoneLeavesStateUnchanged :
    (coreIn .idle 9 [.rxNone, .txAccept]).st = .idle ∧ (coreIn .idle 9 [.rxNone, .txAccept]).flt = [] ∧
      (coreIn .idle 9 [.rxNone, .txAccept]).stim = .rxNone :: [.txAccept] ∧ (coreIn .idle 9 []).stim = [] :=
  ⟨rfl, rfl, rfl, rfl⟩

theorem witness_OtherFramesAreDropped :
    (receiving (frame 0x1A5 (List.replicate 8 0x11))).st = .idle ∧ (receiving (frame 0x7FF [])).flt = [] ∧
      (receiving (frame 0x7FF [])).stim = .rx (frame 0x7FF []) :: [] ∧ (frame 0x1A5 (List.replicate 8 0x11)).inType ∧
      (frame 0x1A5 (List.replicate 8 0x11)).id ≠ 0x1A4 ∧ (frame 0x7FF []).inType ∧ (frame 0x7FF []).id ≠ 0x1A4 ∧
      (frame 0x000 []).inType ∧ (frame 0x000 []).id ≠ 0x1A4 := by
  simp [receiving, coreIn, State.reset, frame, RxFrame.inType]

theorem witness_RequestStepWritesSelCurAndSt :
    idleCore.st = .idle ∧ idleCore.stim = .rx (frame 0x1A4 [0, 0x11, 0, 0, 0, 0, 0x11, 0x11]) :: [] := ⟨rfl, rfl⟩

theorem witness_SelectorPositionHasOneClass :
    (0x11 : Byte) = 0x11 ∧ (0x10 : Byte) ≠ 0x11 ∧ (0x12 : Byte) ≠ 0x11 ∧ (6 ≤ 6 ∧ 6 < 8) ∧ (6 ≤ 7 ∧ 7 < 8) := by decide

/-- Payloads of 6 and of 8 bytes with the same first six, and the empty payload. -/
theorem witness_SelectionIsPureFunctionOfPayload :
    min [0, 0x11, 0, 0, 0, 0x11].length 6 = min [0, 0x11, 0, 0, 0, 0x11, 0x11, 0x11].length 6 ∧
      (∀ i, i < min [0, 0x11, 0, 0, 0, 0x11].length 6 →
        ([0, 0x11, 0, 0, 0, 0x11] : List Byte)[i]? = [0, 0x11, 0, 0, 0, 0x11, 0x11, 0x11][i]?) ∧
      min ([] : List Byte).length 6 = min ([] : List Byte).length 6 := by
  refine ⟨by decide, ?_, rfl⟩
  intro i hi
  have : i = 0 ∨ i = 1 ∨ i = 2 ∨ i = 3 ∨ i = 4 ∨ i = 5 := by simp at hi; omega
  rcases this with rfl | rfl | rfl | rfl | rfl | rfl <;> rfl

theorem witness_PortsRefuseOutOfTypeInputs_frame :
    (receiving (frame 0x1A4 (List.replicate 9 0x11))).st = .idle ∧
      (receiving (frame 0x1A4 (List.replicate 9 0x11))).flt = [] ∧ 8 < (frame 0x1A4 (List.replicate 9 0x11)).len ∧
      0x7FF < (frame 0x800 []).id ∧ RxFrame.extended { frame 0x1A4 [] with extended := true } = true ∧
      RxFrame.remote { frame 0x1A4 [] with remote := true } = true := by decide

theorem witness_PortsRefuseOutOfTypeInputs_answer :
    (coreIn (.wait .co) 4 [.sens .co (.wide 65536)]).st = .wait .co ∧ Slot.co.width = 2 ∧ (65535 : Int) < 65536 ∧
      (-1 : Int) < 0 ∧ Slot.co2 ≠ .co ∧ (coreIn (.asm .co) 4 [.sens .co (.wide 0)]).st = .asm .co ∧
      (coreIn .idle 0 [.sens .co (.wide 0)]).st = .idle ∧
      (coreIn .tx1 9 [.sens .co (.wide 0)]).st = .tx1 ∧ (coreIn .tx2 9 [.sens .co (.wide 0)]).st = .tx2 := by decide

/-- An answer of another slot's kind: a pair for slot 2, a wide reading for slot 3, a pair for slot 5. -/
theorem witness_PortsRefuseOutOfTypeInputs_kind :
    (coreIn (.wait .co) 4 [.sens .co (.pair (.finite 1) (.finite 1))]).st = .wait .co ∧
      answerOfKind .co (.pair (.finite 1) (.finite 1)) = false ∧ answerOfKind .temperature (.wide 1) = false ∧
      answerOfKind .pressure (.pair (.finite 1) (.finite 1)) = false ∧
      (coreIn (.wait .pressure) 8 [.sens .pressure (.single (.finite 1))]).st = .wait .pressure ∧
      Slot.pressure.width = 1 ∧ answerOfKind .pressure (.single (.finite 1)) = true := ⟨rfl, rfl, rfl, rfl, rfl, rfl, rfl⟩

/-- 95_test_vectors.md 2.2: 21.99, -3.7, 0, -1 and 256. -/
theorem witness_TruncatingEncoderWrapsTowardZero :
    IsTrunc (2199 / 100) 21 ∧ IsTrunc (-37 / 10) (-3) ∧ IsTrunc 0 0 ∧ IsTrunc (-1) (-1) ∧ IsTrunc (-1 / 2) 0 ∧
      IsTrunc 256 256 := by
  unfold IsTrunc
  norm_num

theorem witness_WideCompletionWritesTwoBytes :
    waitCore.buf.wf = true ∧ waitCore.st = .wait .methane ∧ waitCore.cur = Slot.methane.offset ∧ 65535 ≤ 65535 ∧
      waitCore.stim = .sens .methane (.wide (65535 : Nat)) :: [] := ⟨by decide, rfl, rfl, by decide, rfl⟩

theorem witness_WideCompletionWritesTwoBytes_co :
    (coreIn (.wait .co) 4 [.sens .co (.wide 0)]).buf.wf = true ∧ (coreIn (.wait .co) 4 [.sens .co (.wide 0)]).st = .wait .co ∧
      (coreIn (.wait .co) 4 [.sens .co (.wide 0)]).cur = Slot.co.offset ∧
      (coreIn (.wait .co) 4 [.sens .co (.wide 0)]).stim = .sens .co (.wide (0 : Nat)) :: [] := ⟨by decide, rfl, rfl, rfl⟩

/-- 95_test_vectors.md 2.4: temperature (-3.0, -4.4) and humidity (45.2, 46.9). -/
theorem witness_MeanCompletionWritesTruncatedMean :
    IsTrunc ((-3 + -44 / 10) / 2) (-3) ∧ IsTrunc ((452 / 10 + 469 / 10) / 2) 46 ∧
      (coreIn (.wait .temperature) 6 [.sens .temperature (.pair (.finite (-3)) (.finite (-44 / 10)))]).buf.wf = true ∧
      (coreIn (.wait .temperature) 6 [.sens .temperature (.pair (.finite (-3)) (.finite (-44 / 10)))]).cur
        = Slot.temperature.offset ∧
      State.reset.params.mean = .exact ∧ formatHas State.reset.params.float (-3) = true ∧
      formatHas State.reset.params.float (-44 / 10) = true ∧
      (coreIn (.wait .humidity) 7 [.sens .humidity (.pair (.finite (452 / 10)) (.finite (469 / 10)))]).cur
        = Slot.humidity.offset := by
  refine ⟨?_, ?_, by decide, rfl, rfl, rfl, rfl, rfl⟩ <;> (unfold IsTrunc; norm_num)

/-- 95_test_vectors.md 2.4: 256000 Pa and -500 Pa. -/
theorem witness_PressureCompletionWritesTruncatedKpa :
    IsTrunc (256000 / 1000) 256 ∧ IsTrunc (-500 / 1000) 0 ∧
      (coreIn (.wait .pressure) 8 [.sens .pressure (.single (.finite 256000))]).buf.wf = true ∧
      (coreIn (.wait .pressure) 8 [.sens .pressure (.single (.finite 256000))]).st = .wait .pressure ∧
      (coreIn (.wait .pressure) 8 [.sens .pressure (.single (.finite 256000))]).cur = 8 ∧
      State.reset.params.kpa = .exact ∧ formatHas State.reset.params.float 256000 = true := by
  refine ⟨?_, ?_, by decide, rfl, rfl, rfl, rfl⟩ <;> (unfold IsTrunc; norm_num)

/-- A core whose readings are of an open format and whose derivations are configured: NaN is in every format. -/
theorem witness_EveryConfigurationEncodesItsDerivedValue :
    let v : SensValue := .pair (.nonFinite .nan) (.nonFinite .posInf)
    let s := { coreIn (.wait .temperature) 6 [.sens .temperature v] with params := ⟨.format 0, .configured 0, .configured 1⟩ }
    s.buf.wf = true ∧ s.st = .wait .temperature ∧ s.cur = Slot.temperature.offset ∧ s.stim = .sens .temperature v :: [] ∧
      answerInType s.params.float .temperature v ∧ ∃ a c, v = .pair a c := ⟨by decide, rfl, rfl, rfl, ⟨rfl, rfl⟩, _, _, rfl⟩

/-- A configured `P_KPA` on a finite reading. -/
theorem witness_EveryConfigurationEncodesItsDerivedValue_pressure :
    let v : SensValue := .single (.finite 98400)
    let s := { coreIn (.wait .pressure) 8 [.sens .pressure v] with params := ⟨.rational, .exact, .configured 0⟩ }
    s.buf.wf = true ∧ s.st = .wait .pressure ∧ s.cur = Slot.pressure.offset ∧ s.stim = .sens .pressure v :: [] ∧
      answerInType s.params.float .pressure v ∧ ∃ p, v = .single p := ⟨by decide, rfl, rfl, rfl, rfl, _, rfl⟩

theorem witness_NonFiniteReadingDrawsByte :
    let s := coreIn (.wait .pressure) 8 [.sens .pressure (.single (.nonFinite .negInf))]
    s.buf.wf = true ∧ s.st = .wait .pressure ∧ s.cur = Slot.pressure.offset ∧
      s.stim = .sens .pressure (.single (.nonFinite .negInf)) :: [] ∧
      answerInType s.params.float .pressure (.single (.nonFinite .negInf)) ∧ Slot.pressure = .pressure ∧
      ∃ n, SensValue.single (.nonFinite .negInf) = .single (.nonFinite n) := ⟨by decide, rfl, rfl, rfl, rfl, rfl, _, rfl⟩

theorem witness_NonFiniteReadingDrawsByte_pair :
    let v : SensValue := .pair (.finite 1) (.nonFinite .nan)
    let s := coreIn (.wait .humidity) 7 [.sens .humidity v]
    s.buf.wf = true ∧ s.st = .wait .humidity ∧ s.cur = Slot.humidity.offset ∧ s.stim = .sens .humidity v :: [] ∧
      answerInType s.params.float .humidity v ∧ ∃ n b, v = .pair (.nonFinite n) b ∨ v = .pair b (.nonFinite n) :=
  ⟨by decide, rfl, rfl, rfl, ⟨rfl, rfl⟩, .nan, .finite 1, .inr rfl⟩

theorem witness_EncodeIssuesReadAndWaits :
    issueCore.st = .asm .co2 ∧ quiet issueCore.stim ∧ quiet { issueCore with stim := [.silent, .sens .co2 (.wide 1)] }.stim :=
  ⟨rfl, trivial, trivial⟩

theorem witness_FillWritesFillerBytes :
    let s := coreIn (.asm .methane) 0 []
    Slot.methane ≠ .pressure ∧ s.buf.wf = true ∧ s.st = .asm .methane ∧ s.cur = Slot.methane.offset ∧ quiet s.stim :=
  ⟨by decide, by decide, rfl, rfl, trivial⟩

theorem witness_FillWritesFillerBytes_last :
    let s := coreIn (.asm .humidity) 7 [.silent]
    Slot.humidity ≠ .pressure ∧ s.buf.wf = true ∧ s.st = .asm .humidity ∧ s.cur = Slot.humidity.offset ∧ quiet s.stim :=
  ⟨by decide, by decide, rfl, rfl, trivial⟩

theorem witness_PressureFillMakesSecondFrameDue :
    fillCore.buf.wf = true ∧ fillCore.st = .asm .pressure ∧ fillCore.cur = 8 ∧ quiet fillCore.stim :=
  ⟨by decide, rfl, rfl, trivial⟩

theorem witness_WideFillerLooksLikeData :
    let u := coreIn (.asm .methane) 0 []
    Slot.methane.width = 2 ∧ waitCore.st = .wait .methane ∧ waitCore.cur = Slot.methane.offset ∧
      waitCore.stim = .sens .methane (.wide 65535) :: [] ∧ u.st = .asm .methane ∧ u.cur = Slot.methane.offset ∧
      quiet u.stim ∧ u.buf = waitCore.buf := ⟨rfl, rfl, rfl, rfl, rfl, rfl, trivial, rfl⟩

theorem witness_PutWritesOrRaisesOverrun :
    fillCore.buf.wf = true ∧ fillCore.cur < 9 ∧ offer1Core.buf.wf = true ∧ 9 ≤ offer1Core.cur := by decide

theorem witness_OverrunRecordsFaultAndStopsCore :
    let s := coreIn (.asm .methane) 8 []
    let u := { coreIn .idle 0 [.rxNone] with flt := [.bufferOverrun] }
    let w := coreIn (.wait .pressure) 9 [.sens .pressure (.single (.finite 1))]
    s.st = .asm .methane ∧ quiet s.stim ∧ 9 < s.cur + Slot.methane.width ∧ w.st = .wait .pressure ∧
      w.stim = .sens .pressure (.single (.finite 1)) :: [] ∧
      answerInType w.params.float .pressure (.single (.finite 1)) ∧ 9 < w.cur + Slot.pressure.width ∧ Fault.bufferOverrun ∈ u.flt ∧ noReset u :=
  ⟨rfl, trivial, by decide, rfl, rfl, rfl, by decide, by decide, by intro d r h; cases h⟩

theorem witness_FaultsAreSticky :
    (∃ t, exec .pollNone { coreIn .idle 0 [] with flt := [.bufferOverrun] } = .next t) ∧
      ∃ t, noReset waitCore ∧ step waitCore = .next t :=
  ⟨⟨_, rfl⟩, _, (by intro d r h; cases h), rfl⟩

theorem witness_AcceptedF1IsSentAndDecidesF2 :
    offer1Core.st = .tx1 ∧ offer1Core.stim = .txAccept :: [] ∧ offer1Core.buf.read 8 ≠ 0 ∧
      { coreIn .tx1 9 [.txAccept] with buf := packed 0x00 }.buf.read 8 = 0 := by decide

theorem witness_AcceptedF2IsSentAndEndsCycle : offer2Core.st = .tx2 ∧ offer2Core.stim = .txAccept :: [] := ⟨rfl, rfl⟩

theorem witness_ZeroByte8EndsCycleWithoutF2 :
    let s := { coreIn .tx1 9 [.txAccept] with buf := packed 0x00 }
    s.st = .tx1 ∧ s.buf.read 8 = 0x00 ∧ s.stim = .txAccept :: [] := by decide

theorem witness_HoldChangesNothing :
    (coreIn (.wait .co) 4 []).flt = [] ∧ (∃ k, (coreIn (.wait .co) 4 []).st = .wait k) ∧
      (coreIn .tx1 9 [.silent]).st = .tx1 ∧ (coreIn .tx1 9 [.silent]).stim = .silent :: [] ∧
      (coreIn .tx2 9 []).st = .tx2 ∧ (coreIn .tx2 9 []).stim = [] := ⟨rfl, ⟨_, rfl⟩, rfl, rfl, rfl, rfl⟩

theorem witness_UnansweredHoldLastsForever :
    let s := coreIn (.wait .co) 4 [.silent, .silent]
    s.flt = [] ∧ (∃ k, s.st = .wait k) ∧ s.stim = List.replicate 2 .silent := ⟨rfl, ⟨_, rfl⟩, rfl⟩

theorem witness_SmallPressureWithholdsF2 :
    let s := coreIn (.wait .pressure) 8 [.sens .pressure (.single (.finite 999)), .txAccept]
    s.buf.wf = true ∧ s.flt = [] ∧ s.st = .wait .pressure ∧ s.cur = 8 ∧ s.params.kpa = .exact ∧
      formatHas s.params.float 999 = true ∧ (-1000 : Rat) < 999 ∧ (999 : Rat) < 1000 ∧
      s.stim = .sens .pressure (.single (.finite 999)) :: .txAccept :: [] :=
  ⟨by decide, rfl, rfl, rfl, rfl, rfl, by norm_num, by norm_num, rfl⟩

theorem witness_UnrequestedPressureStillSendsF2 :
    offer1Core.Inv ∧ offer1Core.st = .tx1 ∧ offer1Core.selected .pressure = false ∧ offer1Core.stim = .txAccept :: [] :=
  ⟨offer1Core_inv, rfl, by decide, rfl⟩

/-- Of StepKeepsInvariant, OverrunIsUnreachable, TransitionsFollowTable, EffectsComeInSequencerOrder,
OnlyRequestWritesSelection, BufferWrittenOnlyAtCursor and ParametersNeverChange, in IDLE. -/
theorem witness_step_idle : idleCore.Inv ∧ noReset idleCore ∧ ∃ t, step idleCore = .next t :=
  ⟨idleCore_inv, (by intro d r h; cases h), _, rfl⟩

/-- The same in ASM(1), the slot requested. -/
theorem witness_step_issue : issueCore.Inv ∧ noReset issueCore ∧ ∃ t, step issueCore = .next t :=
  ⟨issueCore_inv, (by intro d r h; cases h), _, rfl⟩

/-- The same in ASM(5), the slot not requested. -/
theorem witness_step_fill : fillCore.Inv ∧ noReset fillCore ∧ ∃ t, step fillCore = .next t :=
  ⟨fillCore_inv, (by intro d r h; cases h), _, rfl⟩

/-- The same in WAIT(0). -/
theorem witness_step_wait : waitCore.Inv ∧ noReset waitCore ∧ ∃ t, step waitCore = .next t :=
  ⟨waitCore_inv, (by intro d r h; cases h), _, rfl⟩

/-- The same in TX1. -/
theorem witness_step_tx1 : offer1Core.Inv ∧ noReset offer1Core ∧ ∃ t, step offer1Core = .next t :=
  ⟨offer1Core_inv, (by intro d r h; cases h), _, rfl⟩

/-- The same in TX2. -/
theorem witness_step_tx2 : offer2Core.Inv ∧ noReset offer2Core ∧ ∃ t, step offer2Core = .next t :=
  ⟨offer2Core_inv, (by intro d r h; cases h), _, rfl⟩

theorem witness_SequencerNeverLeavesItsTable :
    step (receiving (frame 0x800 [])) = .refused .frameIdOver11Bits := rfl

theorem witness_EveryInTypeInputHasEffect :
    (idleCore.Inv ∧ idleCore.st = .idle ∧ (frame 0x1A4 [0, 0x11, 0, 0, 0, 0, 0x11, 0x11]).inType ∧
      idleCore.stim = .rx (frame 0x1A4 [0, 0x11, 0, 0, 0, 0, 0x11, 0x11]) :: []) ∧
    (waitCore.Inv ∧ waitCore.st = .wait .methane ∧ answerInType waitCore.params.float .methane (.wide 65535) ∧
      waitCore.stim = .sens .methane (.wide 65535) :: []) ∧
    (offer1Core.Inv ∧ offer1Core.st = .tx1 ∧ offer1Core.stim = .txAccept :: []) ∧
    (offer2Core.Inv ∧ offer2Core.st = .tx2 ∧ offer2Core.stim = .txAccept :: []) ∧
    (issueCore.Inv ∧ issueCore.st = .asm .co2 ∧ quiet issueCore.stim) :=
  ⟨⟨idleCore_inv, rfl, by simp [frame, RxFrame.inType], rfl⟩, ⟨waitCore_inv, rfl, by simp [answerInType], rfl⟩,
    ⟨offer1Core_inv, rfl, rfl⟩, ⟨offer2Core_inv, rfl, rfl⟩, issueCore_inv, rfl, trivial⟩

theorem witness_UnreachedOperationIsRefused :
    waitCore.st ≠ .idle ∧ waitCore.st ≠ .asm .methane ∧ waitCore.st ≠ .wait .pressure ∧ waitCore.st ≠ .tx1 ∧
      waitCore.st ≠ .tx2 ∧ offer1Core.st = .tx1 ∧ offer1Core.buf.read 8 ≠ 0x00 := by decide

theorem witness_NonStoringOperationsFrame :
    (Instr.format .pollNone ≠ .slotop ∧ ∃ t, exec .pollNone (coreIn .idle 9 []) = .next t) ∧
    (Instr.format (.rxRequest [0x11]) ≠ .slotop ∧ ∃ t, exec (.rxRequest [0x11]) (coreIn .idle 9 []) = .next t) ∧
    (Instr.format (.selReq .co) = .sel ∧ ∃ t, exec (.selReq .co) (coreIn .idle 9 []) = .next t) ∧
    (Instr.format .txF1 = .txf ∧ ∃ t, exec .txF1 offer1Core = .next t) ∧
    (Instr.format .txF2 = .txf ∧ ∃ t, exec .txF2 offer2Core = .next t) :=
  ⟨⟨by decide, _, rfl⟩, ⟨by decide, _, rfl⟩, ⟨rfl, _, rfl⟩, ⟨rfl, _, rfl⟩, ⟨rfl, _, rfl⟩⟩

theorem witness_SlotOperationsFrame :
    (issueCore.buf.wf = true ∧ issueCore.cur + Slot.co2.width ≤ 9 ∧ ∃ t, exec (.encOf .co2) issueCore = .next t) ∧
    (fillCore.buf.wf = true ∧ fillCore.cur + Slot.pressure.width ≤ 9 ∧ ∃ t, exec (.fillOf .pressure) fillCore = .next t) :=
  ⟨⟨by decide, by decide, _, rfl⟩, by decide, by decide, _, rfl⟩

/-- A request of all six slots in a frame of 8 bytes. -/
def allAnswers : Slot → SensValue
  | .methane => .wide 65535
  | .co2 => .wide 0
  | .co => .wide 255
  | .temperature => .pair (.finite (-3)) (.finite (-44 / 10))
  | .humidity => .pair (.nonFinite .nan) (.finite 300)
  | .pressure => .single (.finite 101325)

theorem witness_RequestCycleSendsPackedResponse :
    let data : List Byte := List.replicate 8 0x11
    let s := coreIn .idle 0 (cycleEvents {} data allAnswers 0 ++ [.rxNone])
    s.st = .idle ∧ s.flt = [] ∧ s.buf.wf = true ∧ data.length ≤ 8 ∧
      (∀ k, requested data k = true → answerInType s.params.float k (allAnswers k)) ∧
      s.stim = cycleEvents s.params data allAnswers s.draws ++ [.rxNone] := by
  refine ⟨rfl, rfl, by decide, by decide, ?_, rfl⟩
  intro k _
  cases k <;> simp [allAnswers, answerInType, readingInFormat, formatHas, coreIn, State.reset]

/-- The empty request (95_test_vectors.md P4). -/
theorem witness_RequestCycleSendsPackedResponse_empty :
    let s := coreIn .idle 0 (cycleEvents {} [] allAnswers 0)
    s.st = .idle ∧ s.flt = [] ∧ s.buf.wf = true ∧ ([] : List Byte).length ≤ 8 ∧
      (∀ k, requested [] k = true → answerInType s.params.float k (allAnswers k)) ∧
      s.stim = cycleEvents s.params [] allAnswers s.draws ++ [] := by
  refine ⟨rfl, rfl, by decide, by decide, ?_, by simp [coreIn, State.reset]⟩
  intro k h
  cases k <;> simp [requested] at h

/-- Two cores in slot 1's step that differ in the bytes the cycle has not written. -/
theorem witness_StaleRegistersAreNeverRead :
    let t := { issueCore with buf := bufferFrom 0 [0xFF, 0xFF, 0x12, 0x34, 0, 0, 0, 0, 0x62] }
    issueCore.Inv ∧ t.Inv ∧ SameCycle issueCore t ∧ issueCore ≠ t := by
  refine ⟨issueCore_inv, inv_of (by decide) rfl rfl (by decide), ⟨rfl, rfl, rfl, rfl, rfl, rfl, fun _ => ⟨rfl, rfl, ?_⟩⟩, by decide⟩
  intro a ha
  have : a = 0 ∨ a = 1 := by simp [issueCore, coreIn] at ha; omega
  rcases this with rfl | rfl <;> rfl

theorem witness_DecodeReadsBackEncode :
    (Instr.rxRequest (List.replicate 8 0xFF)).wf = true ∧ (Instr.rxDiscard 0x7FF []).wf = true ∧
      (Instr.selSkip .pressure 0xFF).wf = true ∧ (Instr.selIgnored 7 0x11).wf = true ∧ Instr.encPres.wf = true ∧
      Instr.noF2.wf = true := by decide

theorem witness_DecodedWordIsEncoded :
    decode .rxf [0b10100100, 0b00001001, 0x11, 0xAA] = .ok (.rxRequest [0x11], [0xAA]) ∧
      decode .slotop [0xB] = .ok (.encPres, []) := ⟨rfl, rfl⟩

end Sys2Proof.Tests
end

/-! Proofs of the scope family (00_scope.md): the completion of an encode operation, whatever the configuration. -/

namespace Sys2Proof.Machine

/-- In WAIT(k) an answer of the slot's type completes the encode operation: the answer's bytes end the slot's step, and its
free bytes are counted (41_field_encode.md R63). -/
theorem exec_encOf_answered {s : State} {k : Slot} {v : SensValue} {rest : List PortEvent} (hst : s.st = .wait k)
    (hstim : s.stim = .sens k v :: rest) (hv : answerInType s.params.float k v) :
    exec (.encOf k) s = writeSlot k (answerBytes s.params (Config.nonFiniteByte s.draws) v)
      { s with stim := rest, draws := s.draws + answerDraws s.params v } := by
  have hwait : awaitSensor k (completionOf k) s = completionOf k v { s with stim := rest } := by
    simp only [awaitSensor, hstim, if_true]
  rw [exec_encOf, encodeSlot_wait hst, hwait, completionOf_inType (s := { s with stim := rest }) hv]

/-- A slot's bytes written from its offset fit, so the step ends in the slot's next sequencer state. -/
theorem writeSlot_at_offset {s : State} {k : Slot} {bytes : List Byte} (hcur : s.cur = k.offset)
    (hlen : bytes.length = k.width) :
    writeSlot k bytes s =
      .next { s with buf := writeBytes s.buf k.offset bytes, cur := k.offset + k.width, st := nextOf k } := by
  rw [writeSlot_ok k bytes (by rw [hcur, hlen]; exact Slot.end_le k), hcur, hlen]

/-- The completion with the cursor at the slot, as the exact next state. -/
theorem exec_encOf_answered_at_offset {s : State} {k : Slot} {v : SensValue} {rest : List PortEvent}
    (hst : s.st = .wait k) (hcur : s.cur = k.offset) (hstim : s.stim = .sens k v :: rest)
    (hv : answerInType s.params.float k v) :
    exec (.encOf k) s = .next { s with
      buf := writeBytes s.buf k.offset (answerBytes s.params (Config.nonFiniteByte s.draws) v),
      cur := k.offset + k.width, st := nextOf k, stim := rest, draws := s.draws + answerDraws s.params v } := by
  rw [exec_encOf_answered hst hstim hv]
  exact writeSlot_at_offset hcur (answerBytes_length hv _ _)

@[simp] theorem writeBytes_singleton (m : Memory) (a : Nat) (b : Byte) : writeBytes m a [b] = m.write a b := rfl

/-- Settles O19: an in-type pair or pressure answer is the single byte `T8` of its derived value, whatever the
configuration, and one byte written at the slot's offset reads back there and nowhere else. -/
theorem everyConfigurationEncodesItsDerivedValue : Obligations.EveryConfigurationEncodesItsDerivedValue := by
  intro s k v x rest hwf hst hcur hstim hv hx
  have hexec := exec_encOf_answered_at_offset hst hcur hstim hv
  obtain ⟨hwidth, hbytes, hdraws⟩ : k.width = 1 ∧
      answerBytes s.params (Config.nonFiniteByte s.draws) v = [t8 (Config.nonFiniteByte s.draws) x] ∧
      answerDraws s.params v = t8Draws x := by
    obtain ⟨rfl | rfl, a, c, rfl, rfl⟩ | ⟨rfl, p, rfl, rfl⟩ := hx
    · exact ⟨rfl, rfl, rfl⟩
    · exact ⟨rfl, rfl, rfl⟩
    · exact ⟨rfl, rfl, rfl⟩
  rw [hwidth, hbytes, hdraws, writeBytes_singleton] at hexec
  refine ⟨_, hexec, ?_, fun i hi => ?_⟩
  · rw [Memory.read_write hwf, if_pos rfl]
  · rw [Memory.read_write hwf, if_neg hi]

end Sys2Proof.Machine

/-! Proofs of the state family (10_state.md): what one step does, row by row, and what every step keeps. -/

namespace Sys2Proof.Machine

variable {s t : State}

/-! ### What one step does -/

/-- The steps of the core as rows (10_state.md R16, 60_exceptions.md R85): one constructor per way in which a step can answer a
next state, with that state. -/
inductive State.StepsTo (s : State) : State → Prop where
  | reset (d : ResetDraw) (rest : List PortEvent) (hstim : s.stim = .reset d :: rest) :
      s.StepsTo (applyReset d { s with stim := rest })
  | pollAgain (hst : s.st = .idle) (hstay : tableNext s = .idle) : s.StepsTo s.polled
  | request (f : RxFrame) (rest : List PortEvent) (hst : s.st = .idle) (hstim : s.stim = .rx f :: rest)
      (hid : f.id = 0x1A4) :
      s.StepsTo { s with
        sel := selectionOf (f.data.take f.len), cur := 0, st := .asm .methane, stim := passPoll s.stim,
        log := s.log ++ [.polled (f.data.take f.len)] }
  | issue (k : Slot) (hst : s.st = .asm k) (hsel : s.selected k = true) :
      s.StepsTo ((s.tick.emit (.read k)).goto (.wait k))
  | fill (k : Slot) (hst : s.st = .asm k) (hsel : s.selected k = false) (t : State)
      (hwrite : writeSlot k (List.replicate k.width (fillerOf k)) s.tick = .next t) : s.StepsTo t
  | complete (k : Slot) (v : SensValue) (rest : List PortEvent) (bytes : List Byte) (n : Nat) (hst : s.st = .wait k)
      (hstim : s.stim = .sens k v :: rest) (hlen : bytes.length = k.width) (t : State)
      (hwrite : writeSlot k bytes { s with stim := rest, draws := s.draws + n } = .next t) : s.StepsTo t
  | hold (hst : (∃ k, s.st = .wait k) ∨ s.st = .tx1 ∨ s.st = .tx2) (hstay : tableNext s = s.st) : s.StepsTo s.tick
  | sendF1 (rest : List PortEvent) (hst : s.st = .tx1) (hstim : s.stim = .txAccept :: rest) :
      s.StepsTo (afterF1 { s with stim := rest })
  | sendF2 (rest : List PortEvent) (hst : s.st = .tx2) (hstim : s.stim = .txAccept :: rest) :
      s.StepsTo (afterF2 { s with stim := rest })

theorem tableNext_idle_none (hst : s.st = .idle) (h : s.stim = [] ∨ ∃ rest, s.stim = .rxNone :: rest) :
    tableNext s = .idle := by
  rcases h with h | ⟨rest, h⟩ <;> simp [tableNext, hst, h]

theorem tableNext_idle_rx (hst : s.st = .idle) {f : RxFrame} {rest : List PortEvent} (h : s.stim = .rx f :: rest) :
    tableNext s = if f.id = 0x1A4 then .asm .methane else .idle := by
  simp [tableNext, hst, h]

theorem tableNext_asm {k : Slot} (hst : s.st = .asm k) :
    tableNext s = if s.selected k then .wait k else nextOf k := by
  simp [tableNext, hst]

theorem tableNext_wait_answered {k j : Slot} {v : SensValue} {rest : List PortEvent} (hst : s.st = .wait k)
    (h : s.stim = .sens j v :: rest) : tableNext s = nextOf k := by
  simp [tableNext, hst, h]

theorem tableNext_wait_hold {k : Slot} (hst : s.st = .wait k) (h : ∀ j v rest, s.stim ≠ .sens j v :: rest) :
    tableNext s = .wait k := by
  unfold tableNext
  split <;> simp_all

theorem tableNext_tx1_hold (hst : s.st = .tx1) (h : ∀ rest, s.stim ≠ .txAccept :: rest) : tableNext s = .tx1 := by
  unfold tableNext
  split <;> simp_all

theorem tableNext_tx1_accepted (hst : s.st = .tx1) {rest : List PortEvent} (h : s.stim = .txAccept :: rest) :
    tableNext s = if s.buf.read 8 = 0 then .idle else .tx2 := by
  simp only [tableNext, hst, h, ne_eq, ite_not]

theorem tableNext_tx2_hold (hst : s.st = .tx2) (h : ∀ rest, s.stim ≠ .txAccept :: rest) : tableNext s = .tx2 := by
  unfold tableNext
  split <;> simp_all

theorem tableNext_tx2_accepted (hst : s.st = .tx2) {rest : List PortEvent} (h : s.stim = .txAccept :: rest) :
    tableNext s = .idle := by
  simp [tableNext, hst, h]

/-- A frame of the RX port's type is classified as a request exactly by its identifier (30_encoding.md R39). -/
theorem classifyFrame_ofNat {n : Nat} (hn : n ≤ 0x7FF) (data : List Byte) :
    classifyFrame (BitVec.ofNat 11 n) data =
      if n = 0x1A4 then .rxRequest data else .rxDiscard (BitVec.ofNat 11 n) data := by
  have hiff : BitVec.ofNat 11 n = Config.reqId ↔ n = 0x1A4 := by
    rw [← BitVec.toNat_inj, BitVec.toNat_ofNat, Nat.mod_eq_of_lt (by omega)]
    rfl
  simp only [classifyFrame, hiff]

/-- Every step that answers a next state is one of the rows. -/
theorem step_stepsTo (h : step s = .next t) : s.StepsTo t := by
  rcases step_next h with ⟨d, rest, hstim, rfl⟩ | ⟨-, -, hrow⟩
  · exact .reset d rest hstim
  rcases hrow with ⟨hst, hnone, h⟩ | ⟨hst, f, rest, hstim, ⟨-, -, hid, -⟩, h⟩ | ⟨k, hst, hsel, h⟩ | ⟨k, hst, hsel, h⟩ |
    ⟨k, hst, h⟩ | ⟨hst, h⟩ | ⟨hst, h⟩
  · obtain ⟨-, rfl⟩ := execPollNone_next h
    exact .pollAgain hst (tableNext_idle_none hst hnone)
  · rw [classifyFrame_ofNat hid] at h
    by_cases hreq : f.id = 0x1A4
    · rw [if_pos hreq] at h
      obtain ⟨-, rfl⟩ := execRxRequest_next h
      exact .request f rest hst hstim hreq
    · rw [if_neg hreq] at h
      obtain ⟨-, rfl⟩ := execRxDiscard_next h
      exact .pollAgain hst ((tableNext_idle_rx hst hstim).trans (if_neg hreq))
  · rcases execEnc_next h with ⟨-, rfl⟩ | ⟨hw, -⟩ | ⟨hw, -⟩
    · exact .issue k hst hsel
    · cases hst.symm.trans hw
    · cases hst.symm.trans hw
  · exact .fill k hst hsel t (execFill_next h).2
  · rcases execEnc_next h with ⟨ha, -⟩ | ⟨-, hno, rfl⟩ | ⟨-, v, rest, bytes, n, hstim, hlen, -, -, hwrite⟩
    · cases hst.symm.trans ha
    · exact .hold (.inl ⟨k, hst⟩) ((tableNext_wait_hold hst hno).trans hst.symm)
    · exact .complete k v rest bytes n hst hstim hlen t hwrite
  · obtain ⟨-, ⟨hno, rfl⟩ | ⟨rest, hstim, rfl⟩⟩ := execTxF1_next h
    · exact .hold (.inr (.inl hst)) ((tableNext_tx1_hold hst hno).trans hst.symm)
    · exact .sendF1 rest hst hstim
  · obtain ⟨-, ⟨hno, rfl⟩ | ⟨rest, hstim, rfl⟩⟩ := execTxF2_next h
    · exact .hold (.inr (.inr hst)) ((tableNext_tx2_hold hst hno).trans hst.symm)
    · exact .sendF2 rest hst hstim

/-! ### What the invariant gives in each sequencer state -/

theorem State.Inv.cur_of_asm (h : s.Inv) {k : Slot} (hst : s.st = .asm k) : s.cur = k.offset := by
  simpa [State.LayoutOk, hst] using h.layout

theorem State.Inv.wait_layout (h : s.Inv) {k : Slot} (hst : s.st = .wait k) :
    s.cur = k.offset ∧ s.selected k = true := by
  simpa [State.LayoutOk, hst] using h.layout

theorem State.Inv.cur_of_tx1 (h : s.Inv) (hst : s.st = .tx1) : s.cur = 9 := by
  simpa [State.LayoutOk, hst] using h.layout

theorem State.Inv.tx2_layout (h : s.Inv) (hst : s.st = .tx2) : s.cur = 9 ∧ s.buf.read 8 ≠ 0 := by
  simpa [State.LayoutOk, hst] using h.layout

/-- In a slot's step the cursor is at the slot and the slots before it are assembled. -/
theorem State.Inv.at_slot (h : s.Inv) {k : Slot} (hst : s.st = .asm k ∨ s.st = .wait k) :
    s.cur = k.offset ∧ assembled s.st = k.index := by
  rcases hst with hst | hst
  · exact ⟨h.cur_of_asm hst, by rw [hst, assembled]⟩
  · exact ⟨(h.wait_layout hst).1, by rw [hst, assembled]⟩

/-- The invariant says nothing about the ports, the log and the free bytes. -/
theorem State.Inv.with_ports (h : s.Inv) (stim : List PortEvent) (log : List Effect) (n : Nat) :
    State.Inv { s with stim := stim, log := log, draws := n } :=
  ⟨h.canonical, h.noFault, h.layout, h.fillers⟩

/-! ### Every step keeps the invariant -/

theorem assembled_nextOf (k : Slot) : assembled (nextOf k) = k.index + 1 := by cases k <;> rfl

/-- A slot's bytes lie before the offset of every later slot. -/
theorem Slot.end_le_offset {j k : Slot} (h : j.index < k.index) : j.offset + j.width ≤ k.offset := by
  revert h
  cases j <;> cases k <;> decide

/-- The cursor after a slot is where the layout puts it in the next sequencer state. -/
theorem layoutOk_nextOf {k : Slot} (hst : s.st = nextOf k) (hcur : s.cur = k.offset + k.width) : s.LayoutOk := by
  unfold State.LayoutOk
  rw [hst, hcur]
  cases k <;> rfl

/-- The end of a slot's step keeps the invariant, if a slot that is not requested gets its filler. -/
theorem writeSlot_keeps_inv {k : Slot} {bytes : List Byte} (h : s.Inv) (hst : s.st = .asm k ∨ s.st = .wait k)
    (hlen : bytes.length = k.width) (hown : s.selected k = false → bytes = List.replicate k.width (fillerOf k))
    (hwrite : writeSlot k bytes s = .next t) : t.Inv := by
  obtain ⟨hcur, hasm⟩ := h.at_slot hst
  rw [writeSlot_at_offset hcur hlen] at hwrite
  cases hwrite
  have hfits : k.offset + bytes.length ≤ 9 := hlen ▸ Slot.end_le k
  refine ⟨writeBytes_wf h.canonical _ _ hfits, h.noFault, layoutOk_nextOf rfl rfl, fun j hj hsel a ⟨hlo, hhi⟩ => ?_⟩
  simp only [writeBytes_read h.canonical _ _ hfits, hlen]
  rw [assembled_nextOf] at hj
  rcases Nat.lt_succ_iff_lt_or_eq.mp hj with hlt | heq
  · have hbefore := Slot.end_le_offset hlt
    rw [if_neg (by omega)]
    exact h.fillers j (hasm ▸ hlt) hsel a ⟨hlo, hhi⟩
  · obtain rfl := Slot.index_inj.mp heq
    rw [if_pos ⟨hlo, hhi⟩, hown hsel, List.getD_replicate _ (by omega)]

theorem applyReset_inv (d : ResetDraw) (s : State) : (applyReset d s).Inv where
  canonical := bufferFrom_wf _ (by simp)
  noFault := rfl
  layout := Nat.le_of_lt_succ d.cur.isLt
  fillers := fun _ hk => absurd hk (Nat.not_lt_zero _)

/-- After F1 the cycle goes on only for a non-zero byte 8. -/
theorem afterF1_keeps_inv (h : s.Inv) (hst : s.st = .tx1) : (afterF1 s).Inv := by
  have hcur := h.cur_of_tx1 hst
  rw [afterF1_eq]
  by_cases h8 : s.buf.read 8 = 0
  · simp only [if_pos h8]
    exact ⟨h.canonical, h.noFault, Nat.le_of_eq hcur, fun _ hk => absurd hk (Nat.not_lt_zero _)⟩
  · simp only [if_neg h8]
    exact ⟨h.canonical, h.noFault, ⟨hcur, h8⟩, fun k hk => h.fillers k (by rw [hst]; exact hk)⟩

theorem afterF2_keeps_inv (h : s.Inv) (hst : s.st = .tx2) : (afterF2 s).Inv :=
  ⟨h.canonical, h.noFault, Nat.le_of_eq (h.tx2_layout hst).1, fun _ hk => absurd hk (Nat.not_lt_zero _)⟩

/-- Settles O36: row by row of the step; only the two slot rows move the cursor and write bytes, and they do so at the slot's
own place (`writeSlot_keeps_inv`). -/
theorem stepKeepsInvariant : Obligations.StepKeepsInvariant := by
  intro s t h hstep
  cases step_stepsTo hstep with
  | reset d rest => exact applyReset_inv d _
  | pollAgain => exact h.with_ports _ _ _
  | request f rest =>
    exact ⟨h.canonical, h.noFault, rfl, fun _ hk => absurd hk (Nat.not_lt_zero _)⟩
  | issue k hst hsel =>
    exact ⟨h.canonical, h.noFault, ⟨h.cur_of_asm hst, hsel⟩, fun j hj => h.fillers j (by rw [hst]; exact hj)⟩
  | fill k hst hsel t hwrite =>
    exact writeSlot_keeps_inv (h.with_ports (passSilent s.stim) _ _) (.inl hst) List.length_replicate (fun _ => rfl) hwrite
  | complete k v rest bytes n hst hstim hlen t hwrite =>
    refine writeSlot_keeps_inv (h.with_ports rest s.log _) (.inr hst) hlen (fun hsel => ?_) hwrite
    exact absurd ((h.wait_layout hst).2.symm.trans hsel) (by decide)
  | hold => exact h.with_ports _ _ _
  | sendF1 rest hst => exact afterF1_keeps_inv (h.with_ports rest _ _) hst
  | sendF2 rest hst => exact afterF2_keeps_inv (h.with_ports rest _ _) hst

/-- Settles O35: at power-on by the reset values, after a reset event by the drawn cursor's range. -/
theorem resetHasInvariant : Obligations.ResetHasInvariant :=
  ⟨⟨reset_buf_wf, rfl, Nat.zero_le 9, fun _ hk => absurd hk (Nat.not_lt_zero _)⟩, applyReset_inv⟩

end Sys2Proof.Machine

/-! The registers that the current cycle has not written (10_state.md R26): cores that agree on the rest take like steps. -/

namespace Sys2Proof.Machine

variable {s t : State}

/-! ### States that agree -/

theorem SameCycle.with_stim (h : SameCycle s t) (stim : List PortEvent) :
    SameCycle { s with stim := stim } { t with stim := stim } :=
  { h with stim := rfl }

theorem SameCycle.tick (h : SameCycle s t) : SameCycle s.tick t.tick :=
  { h with stim := congrArg passSilent h.stim }

theorem SameCycle.polled (h : SameCycle s t) : SameCycle s.polled t.polled :=
  { h with stim := congrArg passPoll h.stim }

theorem SameCycle.emit (h : SameCycle s t) (e : Effect) : SameCycle (s.emit e) (t.emit e) :=
  { h with log := congrArg (· ++ [e]) h.log }

/-- The sequencer state may change, but a cycle begins only where its registers are written. -/
theorem SameCycle.goto (h : SameCycle s t) {x : SeqState} (hx : s.st = .idle → x = .idle) :
    SameCycle (s.goto x) (t.goto x) :=
  { h with st := rfl, inCycle := fun hne => h.inCycle (mt hx hne) }

theorem SameCycle.setSel (h : SameCycle s t) (k : Slot) (b : Bool) : SameCycle (s.setSel k b) (t.setSel k b) :=
  { h with
    inCycle := fun hne =>
      have ⟨hsel, hcur, hbuf⟩ := h.inCycle hne
      ⟨congrArg (setBit · k b) hsel, hcur, hbuf⟩ }

theorem SameCycle.selected_eq (h : SameCycle s t) (hne : s.st ≠ .idle) (k : Slot) : s.selected k = t.selected k :=
  congrArg (·.getLsbD k.index) (h.inCycle hne).1

/-- With the cursor at the end of the buffer all nine bytes agree. -/
theorem SameCycle.read_eq (h : SameCycle s t) (hne : s.st ≠ .idle) (hcur : s.cur = 9) {a : Nat} (ha : a < 9) :
    s.buf.read a = t.buf.read a :=
  (h.inCycle hne).2.2 a (hcur ▸ ha)

theorem SameCycle.frame1_eq (h : SameCycle s t) (hne : s.st ≠ .idle) (hcur : s.cur = 9) :
    frame1 s.buf = frame1 t.buf := by
  simp only [frame1, TxFrame.mk.injEq, true_and]
  exact readBytes_congr fun i _ hi => h.read_eq hne hcur (Nat.lt_trans hi (by decide))

theorem SameCycle.frame2_eq (h : SameCycle s t) (hne : s.st ≠ .idle) (hcur : s.cur = 9) :
    frame2 s.buf = frame2 t.buf := by
  simp only [frame2, TxFrame.mk.injEq, true_and]
  exact readBytes_congr fun i _ hi => h.read_eq hne hcur hi

/-- Both cores read their next operation's word alike. -/
theorem SameCycle.fetch_eq (h : SameCycle s t) : fetch s = fetch t := by
  unfold fetch
  rw [← h.st, ← h.stim]
  cases hst : s.st with
  | asm k => simp only [h.selected_eq (by simp [hst]) k]
  | idle | wait k | tx1 | tx2 => rfl

theorem SameCycle.afterF1 (h : SameCycle s t) (hst : s.st = .tx1) (hcur : s.cur = 9) :
    SameCycle (afterF1 s) (afterF1 t) := by
  have hne : s.st ≠ .idle := by simp [hst]
  rw [afterF1_eq, afterF1_eq]
  exact { h with
    st := by simp only [h.read_eq hne hcur (show 8 < 9 by decide)]
    log := by simp only [h.log, h.frame1_eq hne hcur]
    inCycle := fun _ => h.inCycle hne }

theorem SameCycle.afterF2 (h : SameCycle s t) (hst : s.st = .tx2) (hcur : s.cur = 9) :
    SameCycle (afterF2 s) (afterF2 t) := by
  unfold Machine.afterF2
  rw [h.frame2_eq (by simp [hst]) hcur]
  exact (h.emit _).goto fun _ => rfl

/-! ### Outcomes that look the same -/

theorem SameOutcome.cases {r r' : Result} (h : SameOutcome r r') :
    (∃ s t, r = .next s ∧ r' = .next t ∧ SameCycle s t) ∨ (∃ f, r = .fault f ∧ r' = .fault f) ∨
      ∃ q, r = .refused q ∧ r' = .refused q := by
  unfold SameOutcome at h
  split at h
  · exact .inl ⟨_, _, rfl, rfl, h⟩
  · exact .inr (.inl ⟨_, rfl, h ▸ rfl⟩)
  · exact .inr (.inr ⟨_, rfl, h ▸ rfl⟩)
  · exact h.elim

theorem SameOutcome.refused (r : Refusal) : SameOutcome (.refused r) (.refused r) := rfl

theorem SameOutcome.ite {p q : Prop} [Decidable p] [Decidable q] {a a' b b' : Result} (hpq : p ↔ q)
    (hpos : p → SameOutcome a b) (hneg : ¬ p → SameOutcome a' b') :
    SameOutcome (if p then a else a') (if q then b else b') := by
  by_cases hp : p
  · rw [if_pos hp, if_pos (hpq.mp hp)]
    exact hpos hp
  · rw [if_neg hp, if_neg (mt hpq.mpr hp)]
    exact hneg hp

theorem quietStep_same {act : State → Result} (hstim : s.stim = t.stim) (hact : SameOutcome (act s.tick) (act t.tick)) :
    SameOutcome (quietStep act s) (quietStep act t) := by
  have hacts : (∀ r, s.stim ≠ .silent :: r) → SameOutcome (act s) (act t) := fun hno => by
    rwa [State.tick_of_ne hno, State.tick_of_ne (hstim ▸ hno)] at hact
  unfold quietStep
  rw [← hstim]
  cases hs : s.stim with
  | nil => exact hacts (by simp [hs])
  | cons e rest =>
    cases e with
    | silent => exact hact
    | reset d => exact hacts (by simp [hs])
    | rxNone | rx | sens | txAccept => exact SameOutcome.refused _

theorem awaitSensor_same {k : Slot} {f : SensValue → State → Result} (h : SameCycle s t)
    (hf : ∀ v rest, SameOutcome (f v { s with stim := rest }) (f v { t with stim := rest })) :
    SameOutcome (awaitSensor k f s) (awaitSensor k f t) := by
  unfold awaitSensor
  rw [← h.stim]
  cases hs : s.stim with
  | nil => exact h
  | cons e rest =>
    cases e with
    | sens j v => exact SameOutcome.ite Iff.rfl (fun _ => hf v rest) fun _ => SameOutcome.refused _
    | silent => exact h.tick
    | reset d => exact h
    | rxNone | rx | txAccept => exact SameOutcome.refused _

theorem awaitAccept_same {f : State → State} (h : SameCycle s t)
    (hf : ∀ rest, SameCycle (f { s with stim := rest }) (f { t with stim := rest })) :
    SameOutcome (awaitAccept f s) (awaitAccept f t) := by
  unfold awaitAccept
  rw [← h.stim]
  cases hs : s.stim with
  | nil => exact h
  | cons e rest =>
    cases e with
    | txAccept => exact hf rest
    | silent => exact h.tick
    | reset d => exact h
    | rxNone | rx | sens => exact SameOutcome.refused _

/-- The same bytes end a slot's step in both cores: below the cursor they agree before, at the cursor they agree now. -/
theorem writeSlot_same {k : Slot} {bytes : List Byte} (h : SameCycle s t) (hs : s.Inv) (ht : t.Inv)
    (hst : s.st = .asm k ∨ s.st = .wait k) (hlen : bytes.length = k.width) :
    SameOutcome (writeSlot k bytes s) (writeSlot k bytes t) := by
  have hcur := (hs.at_slot hst).1
  obtain ⟨hsel, hcur', hbuf⟩ := h.inCycle (by rcases hst with hst | hst <;> simp [hst])
  have hfits : k.offset + bytes.length ≤ 9 := hlen ▸ Slot.end_le k
  rw [writeSlot_at_offset hcur hlen, writeSlot_at_offset (hcur' ▸ hcur) hlen]
  refine { h with st := rfl, inCycle := fun _ => ⟨hsel, rfl, fun a ha => ?_⟩ }
  simp only [writeBytes_read hs.canonical _ _ hfits, writeBytes_read ht.canonical _ _ hfits]
  by_cases hown : k.offset ≤ a ∧ a < k.offset + bytes.length
  · rw [if_pos hown, if_pos hown]
  · rw [if_neg hown, if_neg hown]
    simp only at ha
    exact hbuf a (by omega)

/-- An answer that is not of the slot's type is refused, for a reason that only the answer and the number format give. -/
theorem completionOf_outOfType {k : Slot} {v : SensValue} {f : FloatFormat} (hv : ¬ answerInType f k v) :
    ∃ r, ∀ u : State, u.params.float = f → completionOf k v u = .refused r := by
  cases k <;> cases v <;> simp only [answerInType, ← Bool.and_eq_true] at hv
  case methane.wide | co2.wide | co.wide =>
    exact ⟨.wideReadingOutOfRange, fun u _ => by simp only [completionOf, completeWide, wideAnswer, if_neg hv]⟩
  case temperature.pair | humidity.pair =>
    exact ⟨.readingOutsideFormat, fun u hu => by simp only [completionOf, completeMean, pairAnswer, hu, if_neg hv]⟩
  case pressure.single =>
    exact ⟨.readingOutsideFormat, fun u hu => by simp only [completionOf, completeKpa, singleAnswer, hu, if_neg hv]⟩
  all_goals exact ⟨.answerOfWrongType, fun _ _ => rfl⟩

theorem completionOf_same {k : Slot} (h : SameCycle s t) (hs : s.Inv) (ht : t.Inv) (hst : s.st = .wait k)
    (v : SensValue) : SameOutcome (completionOf k v s) (completionOf k v t) := by
  by_cases hv : answerInType s.params.float k v
  · have hbytes : answerBytes t.params (Config.nonFiniteByte t.draws) v =
        answerBytes s.params (Config.nonFiniteByte s.draws) v := by rw [h.params, h.draws]
    rw [completionOf_inType hv, completionOf_inType (h.params ▸ hv), hbytes]
    exact writeSlot_same { h with draws := by rw [h.params, h.draws] } (hs.with_ports _ _ _) (ht.with_ports _ _ _) (.inr hst)
      (answerBytes_length hv _ _)
  · obtain ⟨r, hr⟩ := completionOf_outOfType hv
    rw [hr s rfl, hr t (by rw [h.params])]
    exact SameOutcome.refused r

/-! ### Every operation -/

theorem execFill_same {k : Slot} (h : SameCycle s t) (hs : s.Inv) (ht : t.Inv) :
    SameOutcome (exec (.fillOf k) s) (exec (.fillOf k) t) := by
  rw [exec_fillOf, exec_fillOf]
  refine SameOutcome.ite (by rw [h.st]) (fun hst => ?_) fun _ => SameOutcome.refused _
  exact quietStep_same h.stim (writeSlot_same h.tick (hs.with_ports (passSilent s.stim) _ _)
    (ht.with_ports (passSilent t.stim) _ _) (.inl hst) List.length_replicate)

theorem execEnc_same {k : Slot} (h : SameCycle s t) (hs : s.Inv) (ht : t.Inv) :
    SameOutcome (exec (.encOf k) s) (exec (.encOf k) t) := by
  rw [exec_encOf, exec_encOf]
  refine SameOutcome.ite (by rw [h.st]) (fun hst => ?_) fun _ =>
    SameOutcome.ite (by rw [h.st]) (fun hst => ?_) fun _ => SameOutcome.refused _
  · exact quietStep_same h.stim ((h.tick.emit _).goto fun hi => by cases hst.symm.trans hi)
  · exact awaitSensor_same h fun v rest =>
      completionOf_same (h.with_stim rest) (hs.with_ports _ _ _) (ht.with_ports _ _ _) hst v

theorem execRxRequest_same (h : SameCycle s t) (data : List Byte) :
    SameOutcome (exec (.rxRequest data) s) (exec (.rxRequest data) t) := by
  refine SameOutcome.ite (by rw [h.st]) (fun _ => ?_) fun _ => SameOutcome.refused _
  rw [decodeSelectors_frame data (s.polled.emit _), decodeSelectors_frame data (t.polled.emit _),
    decodeSelectors_sel, decodeSelectors_sel]
  exact { h.polled.emit (.polled data) with
    st := rfl
    inCycle := fun _ => ⟨rfl, rfl, fun a ha => absurd ha (Nat.not_lt_zero a)⟩ }

theorem execPoll_same (h : SameCycle s t) : SameOutcome (exec .pollNone s) (exec .pollNone t) :=
  SameOutcome.ite (by rw [h.st]) (fun _ => h.polled.goto fun _ => rfl) fun _ => SameOutcome.refused _

theorem execTxF1_same (h : SameCycle s t) (hs : s.Inv) : SameOutcome (exec .txF1 s) (exec .txF1 t) :=
  SameOutcome.ite (by rw [h.st])
    (fun hst => awaitAccept_same h fun rest => (h.with_stim rest).afterF1 hst (hs.cur_of_tx1 hst))
    fun _ => SameOutcome.refused _

theorem execTxF2_same (h : SameCycle s t) (hs : s.Inv) : SameOutcome (exec .txF2 s) (exec .txF2 t) :=
  SameOutcome.ite (by rw [h.st])
    (fun hst => awaitAccept_same h fun rest => (h.with_stim rest).afterF2 hst (hs.tx2_layout hst).1)
    fun _ => SameOutcome.refused _

theorem execNoF2_same (h : SameCycle s t) (hs : s.Inv) : SameOutcome (exec .noF2 s) (exec .noF2 t) := by
  refine SameOutcome.ite ?_ (fun _ => h.goto fun _ => rfl) fun _ => SameOutcome.refused _
  rw [← h.st]
  refine and_congr_right fun hst => ?_
  rw [secondFrame, secondFrame, h.read_eq (by simp [hst]) (hs.cur_of_tx1 hst) (by decide)]

/-- Every operation answers alike in two cores that agree on what the cycle has written. -/
theorem exec_same (i : Instr) (h : SameCycle s t) (hs : s.Inv) (ht : t.Inv) : SameOutcome (exec i s) (exec i t) := by
  by_cases hfmt : i.format = .slotop
  · obtain ⟨k, rfl | rfl⟩ := slotop_cases i hfmt
    · exact execEnc_same h hs ht
    · exact execFill_same h hs ht
  cases i with
  | pollNone | rxDiscard => exact execPoll_same h
  | rxRequest data => exact execRxRequest_same h data
  | selReq k => exact h.setSel k true
  | selSkip k | selAbsent k => exact h.setSel k false
  | selIgnored => exact h
  | txF1 => exact execTxF1_same h hs
  | txF2 => exact execTxF2_same h hs
  | noF2 => exact execNoF2_same h hs
  | encMethane | encCo2 | encCo | encTemp | encHum | encPres | fillMethane | fillCo2 | fillCo | fillTemp | fillHum
  | fillPres => exact absurd rfl hfmt

/-! ### Steps and runs -/

theorem SameCycle.applyReset {d d' : ResetDraw} (hparams : s.params = t.params) (hstim : s.stim = t.stim)
    (hlog : s.log = t.log) (hdraws : s.draws = t.draws) : SameCycle (applyReset d s) (applyReset d' t) :=
  ⟨hparams, rfl, hstim, congrArg (· ++ [Effect.reset]) hlog, rfl, hdraws, fun hne => absurd rfl hne⟩

/-- Settles O50: both cores fetch the same word (`SameCycle.fetch_eq`), and every operation answers alike (`exec_same`). -/
theorem staleRegistersAreNeverRead : Obligations.StaleRegistersAreNeverRead := by
  intro s t hs ht h
  cases hr : resetNow s with
  | some s' =>
    obtain ⟨d, rest, hstim, -⟩ := resetNow_eq_some hr
    rw [step_reset hstim, step_reset (h.stim ▸ hstim)]
    exact SameCycle.applyReset h.params rfl h.log h.draws
  | none =>
    have hr' : resetNow t = none := resetNow_eq_none.mpr (h.stim ▸ resetNow_eq_none.mp hr)
    simp only [step, hr, hr', halted, hs.noFault, ht.noFault, List.head?_nil, h.fetch_eq]
    rcases fetch t with r | ⟨fmt, bytes⟩
    · exact SameOutcome.refused r
    · simp only
      rcases decode fmt bytes with e | ⟨i, rest⟩
      · exact SameOutcome.refused _
      · exact exec_same i h hs ht

theorem SameCycle.visible_eq (h : SameCycle s t) (hs : s.Inv) : visible (.next s) = visible (.next t) := by
  have hoffer : s.outstandingOffer = t.outstandingOffer := by
    unfold State.outstandingOffer
    rw [← h.st]
    cases hst : s.st with
    | tx1 => simp only [h.frame1_eq (by simp [hst]) (hs.cur_of_tx1 hst)]
    | tx2 => simp only [h.frame2_eq (by simp [hst]) (hs.tx2_layout hst).1]
    | idle | asm k | wait k => rfl
  simp only [visible, h.log, hoffer, h.flt]

/-- Runs from two cores that agree on what the cycle has written look the same from outside. -/
theorem visible_run_eq (n : Nat) (h : SameCycle s t) (hs : s.Inv) (ht : t.Inv) :
    visible (Host.Core.run Sys2Proof.core n s) = visible (Host.Core.run Sys2Proof.core n t) := by
  induction n generalizing s t with
  | zero => exact h.visible_eq hs
  | succ n ih =>
    rcases (staleRegistersAreNeverRead s t hs ht h).cases with ⟨s', t', hs', ht', h'⟩ | ⟨f, hs', ht'⟩ | ⟨r, hs', ht'⟩
    · rw [run_next n hs', run_next n ht']
      exact ih h' (stepKeepsInvariant s s' hs hs') (stepKeepsInvariant t t' ht ht')
    · rw [run_fault n hs', run_fault n ht']
    · rw [run_refused n hs', run_refused n ht']

/-- Settles O51: the two states after the reset agree in the sense of O50, so their runs do. -/
theorem unspecifiedResetValuesAreUnobservable : Obligations.UnspecifiedResetValuesAreUnobservable := fun s d d' n =>
  visible_run_eq n (SameCycle.applyReset rfl rfl rfl rfl) (applyReset_inv d s) (applyReset_inv d' s)

end Sys2Proof.Machine

/-! The sequencer's table, the registers each step writes, and the refusals (10_state.md R15 to R19, R25, R27). -/

namespace Sys2Proof.Machine

variable {s t : State}

/-! ### Transitions -/

/-- With the cursor at the slot the end of its step goes on to the next sequencer state. -/
theorem writeSlot_st_at_offset {k : Slot} {bytes : List Byte} (h : writeSlot k bytes s = .next t)
    (hlen : bytes.length = k.width) (hcur : s.cur = k.offset) : t.st = nextOf k := by
  cases h.symm.trans (writeSlot_at_offset hcur hlen)
  rfl

/-- Settles O38: each row's own state is the table's; a slot's bytes fit by the invariant, so the slot rows go on. -/
theorem transitionsFollowTable : Obligations.TransitionsFollowTable := by
  intro s t h hno hstep
  cases step_stepsTo hstep with
  | reset d rest hstim => exact absurd hstim (hno d rest)
  | pollAgain hst hstay => exact hst.trans hstay.symm
  | request f rest hst hstim hid => exact ((tableNext_idle_rx hst hstim).trans (if_pos hid)).symm
  | issue k hst hsel => exact ((tableNext_asm hst).trans (if_pos hsel)).symm
  | fill k hst hsel t hwrite =>
    have hnext : t.st = nextOf k := writeSlot_st_at_offset hwrite List.length_replicate (h.cur_of_asm hst)
    exact hnext.trans ((tableNext_asm hst).trans (if_neg (by simp [hsel]))).symm
  | complete k v rest bytes n hst hstim hlen t hwrite =>
    have hnext : t.st = nextOf k := writeSlot_st_at_offset hwrite hlen (h.wait_layout hst).1
    exact hnext.trans (tableNext_wait_answered hst hstim).symm
  | hold hst hstay => exact hstay.symm
  | sendF1 rest hst hstim => rw [afterF1_eq, tableNext_tx1_accepted hst hstim]
  | sendF2 rest hst hstim => exact (tableNext_tx2_accepted hst hstim).symm

/-! ### The registers a step writes -/

@[simp] theorem afterF1_sel (s : State) : (afterF1 s).sel = s.sel := by rw [afterF1_eq]
@[simp] theorem afterF1_buf (s : State) : (afterF1 s).buf = s.buf := by rw [afterF1_eq]
@[simp] theorem afterF1_params (s : State) : (afterF1 s).params = s.params := by rw [afterF1_eq]

/-- The end of a slot's step writes no selection flag, no configuration field, and no byte outside the slot at the cursor,
whether or not the bytes fit. -/
theorem writeSlot_next {k : Slot} {bytes : List Byte} (hlen : bytes.length = k.width)
    (h : writeSlot k bytes s = .next t) :
    t.sel = s.sel ∧ t.params = s.params ∧
      (s.buf.wf = true → ∀ a, ¬ (s.cur ≤ a ∧ a < s.cur + k.width) → t.buf.read a = s.buf.read a) := by
  have hne : bytes ≠ [] := fun h0 => by cases k <;> simp [h0, Slot.width] at hlen
  obtain ⟨u, hu, -, hsel, -, -, ⟨-, hparams⟩, hbuf⟩ := writeSlot_frame k bytes hne s
  cases h.symm.trans hu
  exact ⟨hsel, hparams, fun hwf => hlen ▸ (hbuf hwf).2⟩

/-- Settles O39: row by row; only the row of a request writes `sel`. -/
theorem onlyRequestWritesSelection : Obligations.OnlyRequestWritesSelection := by
  intro s t hno hstep
  cases step_stepsTo hstep with
  | reset d rest hstim => exact absurd hstim (hno d rest)
  | request f rest hst hstim hid => exact .inr ⟨f, rest, hst, hstim, hid, rfl, rfl⟩
  | fill k hst hsel t hwrite => exact .inl (writeSlot_next List.length_replicate hwrite).1
  | complete k v rest bytes n hst hstim hlen t hwrite => exact .inl (writeSlot_next hlen hwrite).1
  | sendF1 rest => exact .inl (afterF1_sel _)
  | pollAgain | issue | hold | sendF2 => exact .inl rfl

/-- A step that is no reset leaves the buffer as it is, or is a slot's step and leaves every byte outside the slot. -/
theorem State.StepsTo.buf_cases (h : s.StepsTo t) (hno : ∀ d rest, s.stim ≠ .reset d :: rest) (hwf : s.buf.wf = true) :
    t.buf = s.buf ∨ ∃ k, (s.st = .asm k ∨ s.st = .wait k) ∧
      ∀ a, ¬ (s.cur ≤ a ∧ a < s.cur + k.width) → t.buf.read a = s.buf.read a := by
  cases h with
  | reset d rest hstim => exact absurd hstim (hno d rest)
  | fill k hst hsel t hwrite => exact .inr ⟨k, .inl hst, (writeSlot_next List.length_replicate hwrite).2.2 hwf⟩
  | complete k v rest bytes n hst hstim hlen t hwrite =>
    exact .inr ⟨k, .inr hst, (writeSlot_next hlen hwrite).2.2 hwf⟩
  | sendF1 rest => exact .inl (afterF1_buf _)
  | pollAgain | request | issue | hold | sendF2 => exact .inl rfl

/-- Settles O40: from the two forms of a step's effect on the buffer; a sequencer state has one slot at most. -/
theorem bufferWrittenOnlyAtCursor : Obligations.BufferWrittenOnlyAtCursor := by
  intro s t hwf hno hstep
  rcases (step_stepsTo hstep).buf_cases hno hwf with hbuf | ⟨k, hst, hbuf⟩
  · exact ⟨fun _ _ _ _ => by rw [hbuf], fun _ => hbuf⟩
  · refine ⟨fun j hj a ha => hbuf a ?_, fun hx => ?_⟩
    · obtain rfl : j = k := by rcases hst with hst | hst <;> simpa [hst, eq_comm] using hj
      exact ha
    · rcases hst with hst | hst <;> simp [hst] at hx

/-- No operation writes a configuration field. -/
theorem exec_params (i : Instr) (h : exec i s = .next t) : t.params = s.params := by
  by_cases hfmt : i.format = .slotop
  · obtain ⟨k, rfl | rfl⟩ := slotop_cases i hfmt
    · rcases execEnc_next h with ⟨-, rfl⟩ | ⟨-, -, rfl⟩ | ⟨-, v, rest, bytes, n, -, hlen, -, -, hwrite⟩
      · rfl
      · rfl
      · exact (writeSlot_next hlen hwrite).2.1
    · exact (writeSlot_next List.length_replicate (execFill_next h).2).2.1
  cases i with
  | pollNone => obtain ⟨-, rfl⟩ := execPollNone_next h; rfl
  | rxDiscard => obtain ⟨-, rfl⟩ := execRxDiscard_next h; rfl
  | rxRequest => obtain ⟨-, rfl⟩ := execRxRequest_next h; rfl
  | selReq | selSkip | selAbsent | selIgnored => cases h; rfl
  | txF1 =>
    obtain ⟨-, ⟨-, rfl⟩ | ⟨rest, -, rfl⟩⟩ := execTxF1_next h
    · rfl
    · exact afterF1_params _
  | txF2 => obtain ⟨-, ⟨-, rfl⟩ | ⟨rest, -, rfl⟩⟩ := execTxF2_next h <;> rfl
  | noF2 => obtain ⟨-, -, rfl⟩ := execNoF2_next h; rfl
  | encMethane | encCo2 | encCo | encTemp | encHum | encPres | fillMethane | fillCo2 | fillCo | fillTemp | fillHum
  | fillPres => exact absurd rfl hfmt

/-- A step that answers a next state is a reset or one operation. -/
theorem step_next_exec (h : step s = .next t) :
    (∃ d rest, s.stim = .reset d :: rest ∧ t = applyReset d { s with stim := rest }) ∨ ∃ i, exec i s = .next t := by
  rcases step_next h with hreset | ⟨-, -, ⟨-, -, h⟩ | ⟨-, f, rest, -, -, h⟩ | ⟨k, -, -, h⟩ | ⟨k, -, -, h⟩ | ⟨k, -, h⟩ |
    ⟨-, h⟩ | ⟨-, h⟩⟩
  · exact .inl hreset
  all_goals exact .inr ⟨_, h⟩

/-- Settles O45: a step is a reset, which keeps the fields, or an operation (`exec_params`). -/
theorem parametersNeverChange : Obligations.ParametersNeverChange := by
  refine ⟨fun i s t => exec_params i, fun s t hstep => ?_, rfl, rfl⟩
  rcases step_next_exec hstep with ⟨d, rest, -, rfl⟩ | ⟨i, h⟩
  · rfl
  · exact exec_params i h

/-! ### Refusals -/

/-- The refusal is of an input at a port, and none of the three that answer a word or an operation out of place. -/
def Refusal.AtPort : Refusal → Prop
  | .outOfSequence | .undecodable _ | .notModelled _ => False
  | _ => True

/-- The outcome is refused, if at all, for an input at a port. -/
def RefusesAtPort (x : Result) : Prop := ∀ r, x = .refused r → r.AtPort

theorem RefusesAtPort.next (s : State) : RefusesAtPort (.next s) := nofun

theorem RefusesAtPort.fault (f : Fault) : RefusesAtPort (.fault f) := nofun

theorem RefusesAtPort.refused {r : Refusal} (h : r.AtPort) : RefusesAtPort (.refused r) := fun _ he => by
  cases he
  exact h

/-- Behind a guard that holds. -/
theorem RefusesAtPort.ite_pos {p : Prop} [Decidable p] {x y : Result} (hp : p) (h : RefusesAtPort x) :
    RefusesAtPort (if p then x else y) := by
  rwa [if_pos hp]

theorem quietStep_refusesAtPort {act : State → Result} (hact : RefusesAtPort (act s.tick)) :
    RefusesAtPort (quietStep act s) := by
  rcases quietStep_cases act s with ⟨r, h, hr⟩ | h
  · rw [h]
    exact .refused (by rcases hr with rfl | rfl | rfl <;> trivial)
  · rwa [h]

theorem writeSlot_refusesAtPort (k : Slot) (bytes : List Byte) (s : State) : RefusesAtPort (writeSlot k bytes s) := by
  unfold writeSlot
  split <;> exact .next _

theorem completionOf_refusesAtPort (k : Slot) (v : SensValue) (s : State) : RefusesAtPort (completionOf k v s) := by
  rcases completionOf_cases k v s with ⟨r, h, hr⟩ | ⟨bytes, n, -, -, -, h⟩
  · rw [h]
    exact .refused (by rcases hr with rfl | rfl | rfl <;> trivial)
  · rw [h]
    exact writeSlot_refusesAtPort k bytes _

theorem execFill_refusesAtPort {k : Slot} (hst : s.st = .asm k) : RefusesAtPort (exec (.fillOf k) s) := by
  rw [exec_fillOf, fillSlot_eq hst]
  exact quietStep_refusesAtPort (writeSlot_refusesAtPort k _ _)

theorem execEnc_refusesAtPort_asm {k : Slot} (hst : s.st = .asm k) : RefusesAtPort (exec (.encOf k) s) := by
  rw [exec_encOf, encodeSlot_issue hst]
  exact quietStep_refusesAtPort (.next _)

theorem execEnc_refusesAtPort_wait {k : Slot} (hst : s.st = .wait k) : RefusesAtPort (exec (.encOf k) s) := by
  rw [exec_encOf, encodeSlot_wait hst]
  rcases awaitSensor_cases k (completionOf k) s with ⟨r, h, hr⟩ | ⟨-, h⟩ | ⟨v, rest, -, h⟩
  · rw [h]
    exact .refused (by rcases hr with rfl | rfl | rfl <;> trivial)
  · rw [h]
    exact .next _
  · rw [h]
    exact completionOf_refusesAtPort k v _

theorem awaitAccept_refusesAtPort (accepted : State → State) (s : State) : RefusesAtPort (awaitAccept accepted s) := by
  rcases awaitAccept_cases accepted s with ⟨r, h, hr⟩ | ⟨-, h⟩ | ⟨rest, -, h⟩
  · rw [h]
    exact .refused (by rcases hr with rfl | rfl <;> trivial)
  all_goals
    rw [h]
    exact .next _

theorem execTxF1_refusesAtPort (hst : s.st = .tx1) : RefusesAtPort (exec .txF1 s) :=
  .ite_pos hst (awaitAccept_refusesAtPort _ s)

theorem execTxF2_refusesAtPort (hst : s.st = .tx2) : RefusesAtPort (exec .txF2 s) :=
  .ite_pos hst (awaitAccept_refusesAtPort _ s)

theorem execPoll_refusesAtPort (hst : s.st = .idle) : RefusesAtPort (exec .pollNone s) := .ite_pos hst (.next _)

/-- In IDLE a classified frame is never refused. -/
theorem execFrame_refusesAtPort (hst : s.st = .idle) (id : CanId) (data : List Byte) :
    RefusesAtPort (exec (classifyFrame id data) s) := by
  unfold classifyFrame
  split
  · exact .ite_pos hst (.next _)
  · exact .ite_pos hst (.next _)

theorem portFrame_error_atPort {f : RxFrame} {r : Refusal} (h : portFrame f = .error r) : r.AtPort := by
  unfold portFrame at h
  split_ifs at h <;> cases h <;> trivial

/-- In IDLE only the poll's answer can be refused. -/
theorem step_idle_refusesAtPort (hr : resetNow s = none) (hf : s.flt = []) (hst : s.st = .idle) :
    RefusesAtPort (step s) := by
  have hrefused {r : Refusal} (hp : fetchPoll s.stim = .error r) (h : r.AtPort) : RefusesAtPort (step s) := by
    rw [step_idle_refused hr hf hst hp]
    exact .refused h
  cases hstim : s.stim with
  | nil => rw [step_idle_none hr hf hst (.inl hstim)]; exact execPoll_refusesAtPort hst
  | cons e rest =>
    cases e with
    | rxNone => rw [step_idle_none hr hf hst (.inr ⟨rest, hstim⟩)]; exact execPoll_refusesAtPort hst
    | rx f =>
      cases hp : portFrame f with
      | error r => exact hrefused (by simp [hstim, fetchPoll, hp]) (portFrame_error_atPort hp)
      | ok idData => rw [step_idle_frame hr hf hst hstim hp]; exact execFrame_refusesAtPort hst _ _
    | sens => exact hrefused (r := .answerWithoutRead) (by rw [hstim]; rfl) trivial
    | txAccept => exact hrefused (r := .acceptWithoutOffer) (by rw [hstim]; rfl) trivial
    | silent => exact hrefused (r := .pollUnanswered) (by rw [hstim]; rfl) trivial
    | reset d => exact absurd hstim (resetNow_eq_none.mp hr d rest)

/-- Every step that is refused is refused for an input at a port. -/
theorem step_refusesAtPort (s : State) : RefusesAtPort (step s) := by
  cases hr : resetNow s with
  | some s' =>
    obtain ⟨d, rest, hstim, -⟩ := resetNow_eq_some hr
    rw [step_reset hstim]
    exact .next _
  | none =>
    by_cases hf : s.flt = []
    · cases hst : s.st with
      | idle => exact step_idle_refusesAtPort hr hf hst
      | asm k =>
        rw [step_asm hr hf hst]
        split
        · exact execEnc_refusesAtPort_asm hst
        · exact execFill_refusesAtPort hst
      | wait k => rw [step_wait hr hf hst]; exact execEnc_refusesAtPort_wait hst
      | tx1 => rw [step_tx1 hr hf hst]; exact execTxF1_refusesAtPort hst
      | tx2 => rw [step_tx2 hr hf hst]; exact execTxF2_refusesAtPort hst
    · obtain ⟨f, -, h⟩ := step_halted hr hf
      rw [h]
      exact .fault f

/-- Settles O42: a refused step is refused for an input at a port (`step_refusesAtPort`), and the three reasons are none. -/
theorem sequencerNeverLeavesItsTable : Obligations.SequencerNeverLeavesItsTable := by
  intro s r hstep
  have hport := step_refusesAtPort s r hstep
  refine ⟨?_, ?_, ?_⟩
  · rintro rfl; exact hport
  · rintro e rfl; exact hport
  · rintro m rfl; exact hport

/-- F2 is withheld exactly for a zero byte 8 (10_state.md R18). -/
theorem secondFrame_eq_false {m : Memory} : secondFrame m = false ↔ m.read 8 = 0 := by
  simp [secondFrame, Config.f1Len]

/-- Settles O44: each operation's guard on the sequencer state fails. -/
theorem unreachedOperationIsRefused : Obligations.UnreachedOperationIsRefused := by
  refine fun s => ⟨fun h => ⟨if_neg h, fun _ _ => if_neg h, fun _ => if_neg h⟩, fun k h => ?_, fun k ha hw => ?_,
    fun h => ⟨if_neg h, if_neg (h ·.1)⟩, fun _ h8 => if_neg fun hno => h8 (secondFrame_eq_false.mp hno.2),
    fun h => if_neg h⟩
  · exact (exec_fillOf k s).trans (if_neg h)
  · exact (exec_encOf k s).trans ((if_neg ha).trans (if_neg hw))

/-! ### Reset and the step -/

/-- Settles O1: the rows of the reset table, read off `State.reset`. -/
theorem resetIsIdleWithNothingOutstanding : Obligations.ResetIsIdleWithNothingOutstanding := ⟨rfl, rfl, rfl, rfl⟩

/-- Settles O3: past the two guards a step is the fetched word's operation (`step_fetched`). -/
theorem stepRunsDecodedOperation : Obligations.StepRunsDecodedOperation :=
  fun _ _ _ _ _ hno hf hfetch hdecode _ => step_fetched (resetNow_eq_none.mpr hno) hf hfetch hdecode

end Sys2Proof.Machine

/-! Proofs of the memory family (20_memory.md): the order of the effects, and the whole request cycle. -/

namespace Sys2Proof.Machine

variable {s t : State}

/-! ### The effect of one step -/

theorem ne_nil_of_length_eq_width {k : Slot} {bytes : List Byte} (hlen : bytes.length = k.width) : bytes ≠ [] := by
  rintro rfl
  cases k <;> simp [Slot.width] at hlen

/-- The end of a slot's step has no effect at a port. -/
theorem writeSlot_log {k : Slot} {bytes : List Byte} (hlen : bytes.length = k.width)
    (h : writeSlot k bytes s = .next t) : t.log = s.log := by
  obtain ⟨u, hu, -, -, -, hlog, -⟩ := writeSlot_frame k bytes (ne_nil_of_length_eq_width hlen) s
  cases h.symm.trans hu
  exact hlog

/-- Settles O41: row by row; only a request, an issue and the two acceptances log an effect. -/
theorem effectsComeInSequencerOrder : Obligations.EffectsComeInSequencerOrder := by
  intro s t hno hstep
  cases step_stepsTo hstep with
  | reset d rest hstim => exact absurd hstim (hno d rest)
  | request f rest hst hstim hid => exact .inr (.inl ⟨f, rest, hst, hstim, hid, rfl, rfl⟩)
  | issue k hst hsel => exact .inr (.inr (.inl ⟨k, hst, hsel, rfl, rfl⟩))
  | fill k hst hsel t hwrite => exact .inl (writeSlot_log (s := s.tick) List.length_replicate hwrite)
  | complete k v rest bytes n hst hstim hlen t hwrite =>
    have hlog := writeSlot_log hlen hwrite
    exact .inl hlog
  | sendF1 rest hst => exact .inr (.inr (.inr (.inl ⟨hst, by rw [afterF1_eq]⟩)))
  | sendF2 rest hst => exact .inr (.inr (.inr (.inr ⟨hst, rfl⟩)))
  | pollAgain | hold => exact .inl rfl

/-! ### The steps of a cycle, each with the event it needs -/

/-- A request frame is polled, decoded and logged in one step (40_request_decode.md R52). -/
theorem step_request {data : List Byte} {rest : List PortEvent} (hst : s.st = .idle) (hflt : s.flt = [])
    (hlen : data.length ≤ 8) (hstim : s.stim = .rx (requestFrame data) :: rest) :
    step s = .next { s with
      sel := selectionOf data, cur := 0, st := .asm .methane, stim := rest, log := s.log ++ [.polled data] } := by
  have hport : portFrame (requestFrame data) = .ok (Config.reqId, data) := by
    simp [portFrame, requestFrame, Config.rxMaxLen, Config.reqId, Nat.not_lt_of_le hlen]
  have hexec : exec (.rxRequest data) s = .next _ := if_pos hst
  rw [step_idle_frame (resetNow_eq_none.mpr (by simp [hstim])) hflt hst hstim hport]
  simp only [classifyFrame, if_true, hexec, (execRxRequest_next hexec).2, hstim, passPoll]

/-- A slot that is not requested is filled in one step (41_field_encode.md R63). -/
theorem step_fill {k : Slot} {rest : List PortEvent} (hst : s.st = .asm k) (hflt : s.flt = []) (hcur : s.cur = k.offset)
    (hsel : s.selected k = false) (hstim : s.stim = .silent :: rest) :
    step s = .next { s with
      buf := writeBytes s.buf k.offset (List.replicate k.width (fillerOf k)), cur := k.offset + k.width,
      st := nextOf k, stim := rest } := by
  have hquiet : quiet s.stim := by rw [hstim]; trivial
  rw [step_asm (resetNow_eq_none.mpr (by simp [hstim])) hflt hst, hsel, if_neg (by decide), exec_fillOf, fillSlot_eq hst,
    quietStep_of hquiet, writeSlot_at_offset (s := s.tick) hcur List.length_replicate]
  simp only [State.tick, hstim, passSilent]

/-- The read of a requested slot is issued in one step (41_field_encode.md R63). -/
theorem step_issue {k : Slot} {rest : List PortEvent} (hst : s.st = .asm k) (hflt : s.flt = [])
    (hsel : s.selected k = true) (hstim : s.stim = .silent :: rest) :
    step s = .next { s with st := .wait k, stim := rest, log := s.log ++ [.read k] } := by
  have hquiet : quiet s.stim := by rw [hstim]; trivial
  rw [step_asm (resetNow_eq_none.mpr (by simp [hstim])) hflt hst, if_pos hsel, exec_encOf, encodeSlot_issue hst,
    quietStep_of hquiet]
  simp only [State.tick, State.emit, State.goto, hstim, passSilent]

/-- An answer of the slot's type completes its slot in one step (41_field_encode.md R63). -/
theorem step_answered {k : Slot} {v : SensValue} {rest : List PortEvent} (hst : s.st = .wait k) (hflt : s.flt = [])
    (hcur : s.cur = k.offset) (hstim : s.stim = .sens k v :: rest) (hv : answerInType s.params.float k v) :
    step s = .next { s with
      buf := writeBytes s.buf k.offset (answerBytes s.params (Config.nonFiniteByte s.draws) v),
      cur := k.offset + k.width, st := nextOf k, stim := rest, draws := s.draws + answerDraws s.params v } := by
  rw [step_wait (resetNow_eq_none.mpr (by simp [hstim])) hflt hst]
  exact exec_encOf_answered_at_offset hst hcur hstim hv

theorem step_tx1_accepted {rest : List PortEvent} (hst : s.st = .tx1) (hflt : s.flt = [])
    (hstim : s.stim = .txAccept :: rest) : step s = .next (afterF1 { s with stim := rest }) := by
  rw [step_tx1 (resetNow_eq_none.mpr (by simp [hstim])) hflt hst]
  simp only [exec, execTxF1, if_pos hst, awaitAccept, hstim]

theorem step_tx2_accepted {rest : List PortEvent} (hst : s.st = .tx2) (hflt : s.flt = [])
    (hstim : s.stim = .txAccept :: rest) : step s = .next (afterF2 { s with stim := rest }) := by
  rw [step_tx2 (resetNow_eq_none.mpr (by simp [hstim])) hflt hst]
  simp only [exec, execTxF2, if_pos hst, awaitAccept, hstim]

theorem run_one (h : step s = .next t) : Host.Core.run Sys2Proof.core 1 s = .next t := run_next 0 h

/-! ### The assembly of the slots -/

/-- The bytes a cycle puts into slot `k`, with `n` free bytes drawn before it: the slot's part of `responseFrom`. -/
def slotBytes (p : Params) (data : List Byte) (answers : Slot → SensValue) (n : Nat) (k : Slot) : List Byte :=
  if requested data k then answerBytes p (Config.nonFiniteByte n) (answers k) else List.replicate k.width (fillerOf k)

/-- How many free bytes a cycle draws for slot `k`. -/
def slotDraws (p : Params) (data : List Byte) (answers : Slot → SensValue) (k : Slot) : Nat :=
  if requested data k then answerDraws p (answers k) else 0

/-- Where the sequencer is when a list of slots is left to assemble. -/
def seqAt : List Slot → SeqState
  | [] => .tx1
  | k :: _ => .asm k

/-- Where the cursor is when a list of slots is left to assemble. -/
def offsetAt : List Slot → Nat
  | [] => 9
  | k :: _ => k.offset

/-- A slot's step leaves the sequencer and the cursor at the slots after it. -/
theorem next_at_suffix {k : Slot} {ks : List Slot} (h : (k :: ks) <:+ Slot.all) :
    nextOf k = seqAt ks ∧ k.offset + k.width = offsetAt ks := by
  have hall : ∀ l ∈ Slot.all.tails, ∀ j ∈ l.head?, nextOf j = seqAt l.tail ∧ j.offset + j.width = offsetAt l.tail := by
    decide
  exact hall _ ((List.mem_tails _ _).mpr h) k rfl

theorem writeBytes_append (m : Memory) (a : Nat) (bytes bytes' : List Byte) :
    writeBytes m a (bytes ++ bytes') = writeBytes (writeBytes m a bytes) (a + bytes.length) bytes' := by
  induction bytes generalizing m a with
  | nil => rfl
  | cons b bytes ih =>
    rw [List.cons_append, writeBytes, ih, List.length_cons, Nat.add_right_comm, Nat.add_assoc]
    rfl

section Assembly

variable {data : List Byte} {answers : Slot → SensValue} {rest : List PortEvent} {k : Slot} {ks : List Slot}

theorem responseFrom_cons (p : Params) (n : Nat) : responseFrom p data answers n (k :: ks) =
    slotBytes p data answers n k ++ responseFrom p data answers (n + slotDraws p data answers k) ks := by
  simp only [responseFrom, slotBytes, slotDraws]
  split <;> rfl

theorem slotBytes_length {f : FloatFormat} (p : Params) (n : Nat)
    (hv : requested data k = true → answerInType f k (answers k)) :
    (slotBytes p data answers n k).length = k.width := by
  unfold slotBytes
  split
  · exact answerBytes_length (hv ‹_›) _ _
  · exact List.length_replicate

theorem responseFrom_length {f : FloatFormat} (p : Params) (n : Nat) (ks : List Slot)
    (hv : ∀ k, requested data k = true → answerInType f k (answers k)) :
    (responseFrom p data answers n ks).length = (ks.map Slot.width).sum := by
  induction ks generalizing n with
  | nil => rfl
  | cons k ks ih => rw [responseFrom_cons, List.length_append, slotBytes_length p n (hv k), ih, List.map_cons, List.sum_cons]

/-- One slot, one step per event: it is filled, or read and completed. -/
theorem run_slot (hst : s.st = .asm k) (hflt : s.flt = []) (hcur : s.cur = k.offset)
    (hsel : s.selected k = requested data k) (hstim : s.stim = slotEvents data answers k ++ rest)
    (hv : requested data k = true → answerInType s.params.float k (answers k)) :
    Host.Core.run Sys2Proof.core (slotEvents data answers k).length s = .next { s with
      buf := writeBytes s.buf k.offset (slotBytes s.params data answers s.draws k), cur := k.offset + k.width,
      st := nextOf k, stim := rest, log := s.log ++ ([k].filter (requested data)).map Effect.read,
      draws := s.draws + slotDraws s.params data answers k } := by
  cases hreq : requested data k with
  | false =>
    simp only [slotEvents, slotBytes, slotDraws, hreq, Bool.false_eq_true, if_false, List.cons_append, List.nil_append,
      List.filter_cons, List.filter_nil, List.map_nil, List.append_nil, Nat.add_zero] at hstim ⊢
    exact run_one (step_fill hst hflt hcur (hsel.trans hreq) hstim)
  | true =>
    simp only [slotEvents, slotBytes, slotDraws, hreq, if_true, List.cons_append, List.nil_append, List.filter_cons,
      List.filter_nil, List.map_cons, List.map_nil] at hstim ⊢
    have hissue := step_issue hst hflt (hsel.trans hreq) hstim
    exact (run_next 1 hissue).trans (run_one (step_answered rfl hflt hcur rfl (hv hreq)))

/-- The slots that are left, one step per event: their bytes land one after the other (41_field_encode.md R76), and the
requested ones are read in slot order (20_memory.md R35). -/
theorem run_slots (hks : ks <:+ Slot.all) (hst : s.st = seqAt ks) (hflt : s.flt = []) (hcur : s.cur = offsetAt ks)
    (hsel : ∀ k, s.selected k = requested data k) (hstim : s.stim = ks.flatMap (slotEvents data answers) ++ rest)
    (hv : ∀ k, requested data k = true → answerInType s.params.float k (answers k)) :
    ∃ n, Host.Core.run Sys2Proof.core (ks.flatMap (slotEvents data answers)).length s = .next { s with
      buf := writeBytes s.buf s.cur (responseFrom s.params data answers s.draws ks), cur := 9, st := .tx1, stim := rest,
      log := s.log ++ (ks.filter (requested data)).map Effect.read, draws := n } := by
  induction ks generalizing s with
  | nil =>
    refine ⟨s.draws, (run_zero s).trans ?_⟩
    cases s
    simp_all [seqAt, offsetAt, responseFrom, writeBytes]
  | cons k ks ih =>
    obtain ⟨hnext, hoffset⟩ := next_at_suffix hks
    rw [List.flatMap_cons, List.append_assoc] at hstim
    have hslot := run_slot hst hflt hcur (hsel k) hstim (hv k)
    obtain ⟨n, hrest⟩ := ih ((List.suffix_cons k ks).trans hks) (s := { s with
      buf := writeBytes s.buf k.offset (slotBytes s.params data answers s.draws k), cur := k.offset + k.width,
      st := nextOf k, stim := ks.flatMap (slotEvents data answers) ++ rest,
      log := s.log ++ ([k].filter (requested data)).map Effect.read,
      draws := s.draws + slotDraws s.params data answers k }) hnext hflt hoffset hsel rfl hv
    have hlen := slotBytes_length s.params s.draws (hv k)
    refine ⟨n, ?_⟩
    rw [List.flatMap_cons, List.length_append, run_trans hslot hrest, responseFrom_cons, writeBytes_append, hlen, hcur,
      ← List.singleton_append (l := ks), List.filter_append, List.map_append, List.append_assoc]
    rfl

end Assembly

/-! ### The response -/

/-- The frames of a buffer's nine bytes are F1 and, for a non-zero byte 8, F2 (42_frame_dispatch.md R78 to R80). -/
theorem responseFrames_readBytes (m : Memory) :
    responseFrames (readBytes m 0 9) = frame1 m :: if m.read 8 = 0 then [] else [frame2 m] := by
  simp only [responseFrames, ne_eq, ite_not]
  rfl

/-- The bytes written into the whole buffer read back. -/
theorem readBytes_writeBytes {m : Memory} (hwf : m.wf = true) {bytes : List Byte} (hlen : bytes.length = 9) :
    readBytes (writeBytes m 0 bytes) 0 9 = bytes := by
  refine List.ext_getElem (by rw [readBytes_length, hlen]) fun i _ hi => ?_
  have hread := writeBytes_read hwf 0 bytes (by omega) i
  rw [if_pos ⟨Nat.zero_le i, by omega⟩, Nat.sub_zero, List.getD_eq_getElem _ _ hi] at hread
  simpa [readBytes] using hread

/-- The dispatcher, one step per acceptance: F1 is sent and, for a non-zero byte 8, F2. -/
theorem run_transmit {bytes : List Byte} {rest : List PortEvent} (hst : s.st = .tx1) (hflt : s.flt = [])
    (hread : readBytes s.buf 0 9 = bytes) (hstim : s.stim = (responseFrames bytes).map (fun _ => .txAccept) ++ rest) :
    Host.Core.run Sys2Proof.core (responseFrames bytes).length s =
      .next { s with st := .idle, stim := rest, log := s.log ++ (responseFrames bytes).map Effect.sent } := by
  subst hread
  rw [responseFrames_readBytes] at hstim ⊢
  have hfirst := step_tx1_accepted hst hflt hstim
  rw [afterF1_eq] at hfirst
  by_cases h8 : s.buf.read 8 = 0
  · simp only [h8, if_true] at hfirst ⊢
    exact run_one hfirst
  · simp only [h8, if_false] at hfirst ⊢
    have hsecond := step_tx2_accepted (s := { s with
      st := .tx2, stim := .txAccept :: rest, log := s.log ++ [.sent (frame1 s.buf)] }) rfl hflt rfl
    refine ((run_next 1 hfirst).trans (run_one hsecond)).trans ?_
    simp [afterF2, State.emit, State.goto]

/-! ### The whole cycle -/

/-- A cycle has at most one request, two events for each slot and two acceptances. -/
theorem cycleEvents_length_le (p : Params) (data : List Byte) (answers : Slot → SensValue) (n : Nat) :
    (cycleEvents p data answers n).length ≤ 15 := by
  have hslot : ∀ k, (slotEvents data answers k).length ≤ 2 := fun k => by
    unfold slotEvents
    split <;> simp
  have hframes : (responseFrames (responseBytes p data answers n)).length ≤ 2 := by
    unfold responseFrames
    split <;> simp
  have hslots : (Slot.all.flatMap (slotEvents data answers)).length ≤ 12 := by
    rw [List.length_flatMap]
    exact List.sum_le_card_nsmul _ 2 (by simpa using fun k _ => hslot k)
  simp only [cycleEvents, List.length_append, List.length_cons, List.length_map]
  omega

/-- Settles O48: the request (`step_request`), the six slots (`run_slots`) and the dispatcher (`run_transmit`), one step for
each event; the assembled bytes read back as the response (`readBytes_writeBytes`). -/
theorem requestCycleSendsPackedResponse : Obligations.RequestCycleSendsPackedResponse := by
  intro s data answers rest hst hflt hwf hdata hv hstim
  have hread : readBytes (writeBytes s.buf 0 (responseBytes s.params data answers s.draws)) 0 9 = _ :=
    readBytes_writeBytes hwf (responseFrom_length s.params s.draws Slot.all hv)
  have hrequest := step_request hst hflt hdata (by rw [hstim, cycleEvents, List.append_assoc, List.cons_append])
  obtain ⟨n, hslots⟩ := run_slots (s := { s with
    sel := selectionOf data, cur := 0, st := .asm .methane,
    stim := Slot.all.flatMap (slotEvents data answers) ++
      ((responseFrames (responseBytes s.params data answers s.draws)).map (fun _ => PortEvent.txAccept) ++ rest),
    log := s.log ++ [.polled data] }) List.suffix_rfl rfl hflt rfl (selectionOf_read data) rfl hv
  have hcycle := run_trans (run_one hrequest) (run_trans hslots (run_transmit rfl hflt hread rfl))
  refine ⟨_, _, ?_, hcycle, rfl, rfl, hflt, rfl, rfl, hread, ?_⟩
  · have hle := cycleEvents_length_le s.params data answers s.draws
    simp only [cycleEvents, List.length_append, List.length_cons, List.length_map] at hle
    omega
  · simp only [cycleEffects, requestedSlots, List.append_assoc, List.cons_append, List.nil_append]

end Sys2Proof.Machine

/-! Proofs of the encoding family (30_encoding.md): the fields of a word, an operation and its bytes in both directions, the
words a step fetches, the inputs of the port types, and the lines of a program. -/

namespace Sys2Proof.Machine

/-! ### The fields of a word -/

theorem extractLsb'_one {w : Nat} (x : BitVec w) (i : Nat) : x.extractLsb' i 1 = BitVec.ofBool (x.getLsbD i) := by
  refine BitVec.eq_of_getLsbD_eq fun j hj => ?_
  obtain rfl : j = 0 := by omega
  simp

/-- A word is its high, middle and low field, one after the other. -/
theorem append_three_fields {hi mid lo : Nat} (x : BitVec (hi + mid + lo)) :
    x.extractLsb' (lo + mid) hi ++ x.extractLsb' lo mid ++ x.extractLsb' 0 lo = x := by
  rw [BitVec.extractLsb'_append_extractLsb'_eq_extractLsb' rfl, BitVec.extractLsb'_append_extractLsb']

/-- The second head byte of an RXF word is made of the zero bit, the length and the identifier's upper bits. -/
theorem frameByte_of_fields (b0 b1 : Byte) (h : b1.getLsbD 7 = false) :
    0#1 ++ BitVec.ofNat 4 (headLen b1) ++ (headId b0 b1).extractLsb' 8 3 = b1 := by
  have hbit : 0#1 = b1.extractLsb' 7 1 := by rw [extractLsb'_one, h]; rfl
  rw [headLen, headId, BitVec.ofNat_toNat, BitVec.setWidth_eq, BitVec.extractLsb'_append_eq_left, hbit]
  exact append_three_fields (hi := 1) (mid := 4) (lo := 3) b1

/-- The second byte of a SEL word is made of four zero bits, the absence and the position. -/
theorem selectorByte_of_fields (c : Byte) (h : c.extractLsb' 4 4 = 0) :
    0#4 ++ BitVec.ofBool (c.getLsbD 3) ++ BitVec.ofNat 3 (c.extractLsb' 0 3).toNat = c := by
  rw [BitVec.ofNat_toNat, BitVec.setWidth_eq, ← extractLsb'_one, show 0#4 = c.extractLsb' 4 4 from h.symm]
  exact append_three_fields (hi := 4) (mid := 1) (lo := 3) c

/-- The byte of a SLOTOP word is made of four zero bits, the slot's index and the selection bit. -/
theorem slotopByte_of_fields (b : Byte) (h : b.extractLsb' 4 4 = 0) :
    0#4 ++ BitVec.ofNat 3 (b.extractLsb' 1 3).toNat ++ BitVec.ofBool (b.getLsbD 0) = b := by
  rw [BitVec.ofNat_toNat, BitVec.setWidth_eq, ← extractLsb'_one, show 0#4 = b.extractLsb' 4 4 from h.symm]
  exact append_three_fields (hi := 4) (mid := 3) (lo := 1) b

/-- Two bytes, the low one first, from the word they form. -/
theorem bytes_of_word {b0 b1 : Byte} {w : BitVec 16} (h : b1 ++ b0 = w) :
    [b0, b1] = [w.extractLsb' 0 8, w.extractLsb' 8 8] := by
  rw [← h, BitVec.extractLsb'_append_eq_right, BitVec.extractLsb'_append_eq_left]

/-! ### The slot of an index -/

theorem Slot.ofIndex?_index (k : Slot) : Slot.ofIndex? k.index = some k := by cases k <;> rfl

theorem Slot.ofIndex?_eq_some {n : Nat} {k : Slot} : Slot.ofIndex? n = some k ↔ n = k.index := by
  refine ⟨fun h => ?_, fun h => h ▸ Slot.ofIndex?_index k⟩
  have hn : n < 6 := (List.getElem?_eq_some_iff.mp h).1
  interval_cases n <;> cases h <;> rfl

/-- The six slots are among the eight positions of a request. -/
theorem Slot.index_lt_eight (k : Slot) : k.index < 8 := Nat.lt_add_right 2 (Slot.index_lt k)

theorem Slot.ofIndex?_eq_none {n : Nat} : Slot.ofIndex? n = none ↔ 6 ≤ n := List.getElem?_eq_none_iff

/-! ### Operations and words -/

theorem wf_rxDiscard {id : CanId} {data : List Byte} :
    (Instr.rxDiscard id data).wf = true ↔ id ≠ Config.reqId ∧ data.length ≤ 8 :=
  Bool.and_eq_true_iff.trans (and_congr bne_iff_ne decide_eq_true_iff)

theorem wf_rxRequest {data : List Byte} : (Instr.rxRequest data).wf = true ↔ data.length ≤ 8 := decide_eq_true_iff

theorem wf_selSkip {k : Slot} {b : Byte} : (Instr.selSkip k b).wf = true ↔ b ≠ Config.sentinel := bne_iff_ne

theorem wf_selIgnored {p : Nat} {b : Byte} : (Instr.selIgnored p b).wf = true ↔ 6 ≤ p ∧ p < 8 :=
  Bool.and_eq_true_iff.trans (and_congr decide_eq_true_iff decide_eq_true_iff)

/-- A word that an operation is spelled as: the operation is well-formed, of the format, and these are its bytes. -/
structure Spells (fmt : Format) (word : List Byte) (i : Instr) : Prop where
  wf : i.wf = true
  format : i.format = fmt
  encode : i.encode = word

/-! ### Frames -/

theorem classifyFrame_request (data : List Byte) : classifyFrame Config.reqId data = .rxRequest data := if_pos rfl

theorem classifyFrame_other {id : CanId} (h : id ≠ Config.reqId) (data : List Byte) :
    classifyFrame id data = .rxDiscard id data := if_neg h

/-- A frame's word spells its class. -/
theorem encodeFrame_spells (id : CanId) {data : List Byte} (hlen : data.length ≤ 8) :
    Spells .rxf (encodeFrame id data) (classifyFrame id data) := by
  by_cases hid : id = Config.reqId
  · subst hid
    rw [classifyFrame_request]
    exact ⟨wf_rxRequest.mpr hlen, rfl, rfl⟩
  · rw [classifyFrame_other hid]
    exact ⟨wf_rxDiscard.mpr ⟨hid, hlen⟩, rfl, rfl⟩

/-- What the RXF decoder accepts is no bytes at all, or a frame's word and what is left. -/
theorem decodeRxf_spelled {bytes rest : List Byte} {i : Instr} (h : decodeRxf bytes = .ok (i, rest)) :
    ∃ word, Spells .rxf word i ∧ bytes = word ++ rest := by
  match bytes with
  | [] => cases h; exact ⟨[], ⟨rfl, rfl, rfl⟩, rfl⟩
  | [_] => cases h
  | b0 :: b1 :: tail =>
    rw [decodeRxf] at h
    split_ifs at h with hbit hlong hshort
    cases h
    have htake : (tail.take (headLen b1)).length = headLen b1 := List.length_take_of_le (Nat.le_of_not_lt hshort)
    refine ⟨_, encodeFrame_spells _ (htake.trans_le (Nat.le_of_not_lt hlong)), ?_⟩
    have hlow : (headId b0 b1).extractLsb' 0 8 = b0 := BitVec.extractLsb'_append_eq_right
    rw [encodeFrame, htake, frameByte_of_fields b0 b1 (Bool.eq_false_of_not_eq_true hbit), hlow, List.cons_append,
      List.cons_append, List.take_append_drop]

/-! ### Selector positions -/

/-- A position's two bytes decode to its class. -/
theorem decode_encodeSelector {p : Nat} (hp : p < 8) (absent : Bool) (b : Byte) :
    decode .sel (encodeSelector p absent b) = (classifySelector p absent b).map (·, []) := by
  have hfields : ∀ (a : Bool) (x : BitVec 3), (0#4 ++ BitVec.ofBool a ++ x).extractLsb' 4 4 = 0 ∧
    (0#4 ++ BitVec.ofBool a ++ x).getLsbD 3 = a := by decide
  obtain ⟨hzero, habsent⟩ := hfields absent (BitVec.ofNat 3 p)
  have hpos : (BitVec.ofNat 3 p).toNat = p := Nat.mod_eq_of_lt hp
  simp only [decode, encodeSelector, decodeSel, if_pos hzero, habsent, BitVec.extractLsb'_append_eq_right, hpos]
  cases classifySelector p absent b <;> rfl

theorem decode_requested (k : Slot) :
    decode .sel (encodeSelector k.index false Config.sentinel) = .ok (.selReq k, []) := by
  simp [decode_encodeSelector (Slot.index_lt_eight k), classifySelector, Slot.ofIndex?_index, Except.map]

theorem decode_skipped (k : Slot) {b : Byte} (hb : b ≠ Config.sentinel) :
    decode .sel (encodeSelector k.index false b) = .ok (.selSkip k b, []) := by
  simp [decode_encodeSelector (Slot.index_lt_eight k), classifySelector, Slot.ofIndex?_index, hb, Except.map]

theorem decode_absent (k : Slot) : decode .sel (encodeSelector k.index true 0) = .ok (.selAbsent k, []) := by
  simp [decode_encodeSelector (Slot.index_lt_eight k), classifySelector, Slot.ofIndex?_index, Except.map]

theorem decode_ignored {p : Nat} (hlo : 6 ≤ p) (hhi : p < 8) (b : Byte) :
    decode .sel (encodeSelector p false b) = .ok (.selIgnored p b, []) := by
  simp [decode_encodeSelector hhi, classifySelector, Slot.ofIndex?_eq_none.mpr hlo, Except.map]

/-- A position's word spells its class, where it has one (30_encoding.md R41). -/
theorem encodeSelector_spells {p : Nat} (hp : p < 8) {absent : Bool} {b : Byte} {i : Instr}
    (h : classifySelector p absent b = .ok i) : Spells .sel (encodeSelector p absent b) i := by
  unfold classifySelector at h
  split at h
  · next k hk =>
    obtain rfl := Slot.ofIndex?_eq_some.mp hk
    cases h
    by_cases hb : b = Config.sentinel
    · rw [if_pos hb, hb]; exact ⟨rfl, rfl, rfl⟩
    · rw [if_neg hb]; exact ⟨wf_selSkip.mpr hb, rfl, rfl⟩
  · next k hk =>
    obtain rfl := Slot.ofIndex?_eq_some.mp hk
    split at h
    · next hb => cases h; exact ⟨rfl, rfl, hb ▸ rfl⟩
    · cases h
  · next hk =>
    cases h
    exact ⟨wf_selIgnored.mpr ⟨Slot.ofIndex?_eq_none.mp hk, hp⟩, rfl, rfl⟩
  · cases h

/-- What the SEL decoder accepts is a position's word and what is left. -/
theorem decodeSel_spelled {bytes rest : List Byte} {i : Instr} (h : decodeSel bytes = .ok (i, rest)) :
    ∃ word, Spells .sel word i ∧ bytes = word ++ rest := by
  match bytes with
  | [] | [_] => cases h
  | b :: c :: tail =>
    rw [decodeSel] at h
    split_ifs at h with hzero
    cases hclass : classifySelector (c.extractLsb' 0 3).toNat (c.getLsbD 3) b with
    | ok j =>
      rw [hclass] at h
      cases h
      refine ⟨_, encodeSelector_spells (BitVec.isLt _) hclass, ?_⟩
      rw [encodeSelector, selectorByte_of_fields c hzero]
      rfl
    | error e => rw [hclass] at h; cases h

/-- Settles O11: the decoder's four cases for a position, one lemma each. -/
theorem selectorPositionHasOneClass : Obligations.SelectorPositionHasOneClass :=
  ⟨fun k _ hb => hb ▸ decode_requested k, fun k _ hb => decode_skipped k hb, decode_absent,
    fun _ b hlo hhi => decode_ignored hlo hhi b⟩

/-! ### Slot operations -/

/-- The code `(k << 1) | s` spells the slot's encode or fill operation (30_encoding.md R42). -/
theorem encodeSlotop_spells (k : Slot) (s : Bool) :
    Spells .slotop (encodeSlotop k s) (if s then .encOf k else .fillOf k) := by
  cases s <;> cases k <;> exact ⟨rfl, rfl, rfl⟩

/-- The slot's code is `2k + s` (30_encoding.md R42). -/
theorem encodeSlotop_code (k : Slot) (s : Bool) : encodeSlotop k s = [BitVec.ofNat 8 (2 * k.index + s.toNat)] := by
  cases k <;> cases s <;> rfl

theorem decode_encode_slotop {i : Instr} (h : i.format = .slotop) : decode .slotop i.encode = .ok (i, []) := by
  obtain ⟨k, rfl | rfl⟩ := slotop_cases i h
  · exact (encodeSlotop_spells k true).encode ▸ decode_encodeSlotop k true
  · exact (encodeSlotop_spells k false).encode ▸ decode_encodeSlotop k false

/-- What the SLOTOP decoder accepts is a slot's code and what is left. -/
theorem decodeSlotop_spelled {bytes rest : List Byte} {i : Instr} (h : decodeSlotop bytes = .ok (i, rest)) :
    ∃ word, Spells .slotop word i ∧ bytes = word ++ rest := by
  match bytes with
  | [] => cases h
  | b :: tail =>
    rw [decodeSlotop] at h
    split at h
    · next hzero =>
      cases hk : Slot.ofIndex? (b.extractLsb' 1 3).toNat with
      | some k =>
        rw [hk] at h
        cases h
        refine ⟨_, encodeSlotop_spells k (b.getLsbD 0), ?_⟩
        rw [encodeSlotop, ← Slot.ofIndex?_eq_some.mp hk, slotopByte_of_fields b hzero]
        rfl
      | none => rw [hk] at h; cases h
    · cases h

/-! ### Outbound frames -/

/-- What the TXF decoder accepts is no bytes at all, or a response identifier's word and what is left. -/
theorem decodeTxf_spelled {bytes rest : List Byte} {i : Instr} (h : decodeTxf bytes = .ok (i, rest)) :
    ∃ word, Spells .txf word i ∧ bytes = word ++ rest := by
  match bytes with
  | [] => cases h; exact ⟨[], ⟨rfl, rfl, rfl⟩, rfl⟩
  | [_] => cases h
  | b0 :: b1 :: tail =>
    rw [decodeTxf] at h
    split_ifs at h with hfirst hsecond
    · cases h; exact ⟨[b0, b1], ⟨rfl, rfl, (bytes_of_word hfirst).symm ▸ rfl⟩, rfl⟩
    · cases h; exact ⟨[b0, b1], ⟨rfl, rfl, (bytes_of_word hsecond).symm ▸ rfl⟩, rfl⟩

/-! ### Decode and encode agree -/

/-- Settles O52: by the operation; frames, selector positions and slot operations by the lemma of their format, the rest by
evaluation. -/
theorem decodeReadsBackEncode : Obligations.DecodeReadsBackEncode := by
  intro i hwf
  cases i with
  | pollNone | txF1 | txF2 | noF2 => rfl
  | rxDiscard id data =>
    obtain ⟨hid, hlen⟩ := wf_rxDiscard.mp hwf
    rw [Instr.format, Instr.encode, decode_encodeFrame id data hlen, classifyFrame_other hid]
  | rxRequest data =>
    rw [Instr.format, Instr.encode, decode_encodeFrame Config.reqId data (wf_rxRequest.mp hwf), classifyFrame_request]
  | selReq k => exact decode_requested k
  | selSkip k b => exact decode_skipped k (wf_selSkip.mp hwf)
  | selAbsent k => exact decode_absent k
  | selIgnored p b =>
    obtain ⟨hlo, hhi⟩ := wf_selIgnored.mp hwf
    exact decode_ignored hlo hhi b
  | encMethane | encCo2 | encCo | encTemp | encHum | encPres | fillMethane | fillCo2 | fillCo | fillTemp | fillHum
  | fillPres => exact decode_encode_slotop rfl

/-- Settles O53: by the format; each decoder accepts only a word that spells the operation. -/
theorem decodedWordIsEncoded : Obligations.DecodedWordIsEncoded := by
  intro fmt bytes rest i h
  have hspelled : ∃ word, Spells fmt word i ∧ bytes = word ++ rest := by
    cases fmt with
    | rxf => exact decodeRxf_spelled h
    | sel => exact decodeSel_spelled h
    | slotop => exact decodeSlotop_spelled h
    | txf => exact decodeTxf_spelled h
  obtain ⟨word, ⟨hwf, hformat, rfl⟩, hbytes⟩ := hspelled
  exact ⟨hwf, hformat, hbytes⟩

/-- Settles O54: the decoder evaluated on the eight words. -/
theorem sampleWordsDecode : Obligations.SampleWordsDecode := ⟨rfl, rfl, rfl, rfl, rfl, rfl, rfl, rfl⟩

/-! ### The words a step fetches -/

variable {s : State}

/-- What the RX port makes of a frame of its type (10_state.md R11). -/
theorem portFrame_of_inType {f : RxFrame} (h : f.inType) :
    portFrame f = .ok (BitVec.ofNat 11 f.id, f.data.take f.len) := by
  obtain ⟨hext, hremote, hid, hlen, hdata⟩ := h
  simp [portFrame, hext, hremote, Config.rxMaxLen, Nat.not_lt_of_le hlen, Nat.not_lt_of_le hid, Nat.not_lt_of_le hdata]

/-- Settles O4: the step runs the class of the frame the RX port hands over (`step_idle_frame`), and the class goes by the
identifier (`classifyFrame_ofNat`). -/
theorem frameClassifiedByIdentifierAlone : Obligations.FrameClassifiedByIdentifierAlone := by
  refine ⟨fun s f rest hst hflt hstim hin => ?_, fun s hst hflt hstim => ?_⟩
  · have ⟨_, _, hid, _⟩ := hin
    rw [step_idle_frame (resetNow_eq_none.mpr (by simp [hstim])) hflt hst hstim (portFrame_of_inType hin),
      classifyFrame_ofNat hid]
    split <;> rfl
  · have hno : resetNow s = none := by
      rcases hstim with hstim | ⟨rest, hstim⟩ <;> exact resetNow_eq_none.mpr (by simp [hstim])
    exact step_idle_none hno hflt hst hstim

/-- A poll's answer is a word of format RXF. -/
theorem fetchPoll_format {stim : List PortEvent} {fmt : Format} {word : List Byte}
    (h : fetchPoll stim = .ok (fmt, word)) : fmt = .rxf := by
  match stim with
  | [] | .rxNone :: _ | .reset _ :: _ => cases h; rfl
  | .rx f :: _ =>
    simp only [fetchPoll] at h
    split at h <;> cases h
    rfl
  | .sens _ _ :: _ | .txAccept :: _ | .silent :: _ => cases h

/-- A slot code is fetched only in ASM(k) and WAIT(k), as the multiplexer's code (41_field_encode.md R63). -/
theorem fetch_slotop {word : List Byte} (h : fetch s = .ok (.slotop, word)) : ∃ k b, word = encodeSlotop k b := by
  cases hst : s.st with
  | idle => rw [fetch, hst] at h; cases fetchPoll_format h
  | asm k => rw [fetch, hst] at h; cases h; exact ⟨k, _, rfl⟩
  | wait k => rw [fetch, hst] at h; cases h; exact ⟨k, true, rfl⟩
  | tx1 | tx2 => rw [fetch, hst] at h; cases h

/-- Settles O5: the code by its number (`encodeSlotop_code`), the twelve codes by `decode_encodeSlotop`, the four others by
evaluation; a fetched code is a slot's, and slots end at 5. -/
theorem multiplexerFormsSlotCode : Obligations.MultiplexerFormsSlotCode := by
  refine ⟨fun s k hst => ?_, fun k => ⟨?_, ?_⟩, fun c hlo hhi => ?_, fun s c h => ?_⟩
  · rw [fetch, hst, ← encodeSlotop_code]
  · exact encodeSlotop_code k true ▸ decode_encodeSlotop k true
  · exact encodeSlotop_code k false ▸ decode_encodeSlotop k false
  · interval_cases c <;> rfl
  · obtain ⟨k, b, hword⟩ := fetch_slotop h
    rw [encodeSlotop_code, List.cons.injEq] at hword
    have hk := Slot.index_lt k
    have hb := Bool.toNat_le b
    rw [hword.1, BitVec.toNat_ofNat]
    omega

/-! ### The inputs of the port types -/

theorem exec_rxRequest_idle (hst : s.st = .idle) (data : List Byte) :
    ∃ t, exec (.rxRequest data) s = .next t ∧ t.stim = passPoll s.stim := by
  have hexec : exec (.rxRequest data) s = .next _ := if_pos hst
  exact ⟨_, hexec, by rw [(execRxRequest_next hexec).2]⟩

theorem exec_rxDiscard_idle (hst : s.st = .idle) (id : CanId) (data : List Byte) :
    ∃ t, exec (.rxDiscard id data) s = .next t ∧ t.stim = passPoll s.stim :=
  ⟨_, if_pos hst, rfl⟩

/-- In ASM(k) the step completes when no agent acts in it: it issues the read or fills the slot. -/
theorem step_asm_quiet {k : Slot} (hst : s.st = .asm k) (hflt : s.flt = []) (hquiet : quiet s.stim) :
    ∃ t, step s = .next t := by
  have hno : resetNow s = none := resetNow_eq_none.mpr fun d rest hstim => by rw [hstim] at hquiet; exact hquiet
  rw [step_asm hno hflt hst]
  cases s.selected k with
  | true => exact ⟨_, by rw [if_pos rfl, exec_encOf, encodeSlot_issue hst, quietStep_of hquiet]⟩
  | false =>
    obtain ⟨t, ht, -⟩ := writeSlot_frame k _ (fillers_ne_nil k (fillerOf k)) s.tick
    exact ⟨t, by rw [if_neg (by decide), exec_fillOf, fillSlot_eq hst, quietStep_of hquiet, ht]⟩

/-- Settles O43: a frame by its class (O4), an answer by `step_answered`, an acceptance by the dispatcher's step, and ASM(k)
by `step_asm_quiet`. -/
theorem everyInTypeInputHasEffect : Obligations.EveryInTypeInputHasEffect := by
  refine fun s hinv => ⟨fun hst f rest hstim hin => ?_, fun k hst v rest hstim hv => ?_, fun hst rest hstim => ?_,
    fun k hst hquiet => step_asm_quiet hst hinv.noFault hquiet⟩
  · have hpass : passPoll s.stim = rest := by rw [hstim]; rfl
    rw [frameClassifiedByIdentifierAlone.1 s f rest hst hinv.noFault hstim hin, ← hpass]
    split
    · exact exec_rxRequest_idle hst _
    · exact exec_rxDiscard_idle hst _ _
  · exact ⟨_, step_answered hst hinv.noFault (hinv.wait_layout hst).1 hstim hv, rfl, rfl⟩
  · rcases hst with hst | hst
    · exact ⟨_, step_tx1_accepted hst hinv.noFault hstim, by rw [afterF1_eq]⟩
    · exact ⟨_, step_tx2_accepted hst hinv.noFault hstim, rfl⟩

/-! ### The lines of a program -/

theorem programEvents_accepts (sel : BitVec 6) (frames : List TxFrame) (rest : List PortEvent) :
    programEvents sel (frames.map (fun _ => .txAccept) ++ rest) =
      frames.map (fun _ => .txAccept) ++ programEvents sel rest := by
  induction frames with
  | nil => rfl
  | cons f frames ih => exact congrArg (PortEvent.txAccept :: ·) ih

/-- The slots after a slot, by its index. -/
theorem drop_at_suffix {k : Slot} {ks : List Slot} (h : (k :: ks) <:+ Slot.all) : Slot.all.drop (k.index + 1) = ks := by
  have hall : ∀ l ∈ Slot.all.tails, ∀ j ∈ l.head?, Slot.all.drop (j.index + 1) = l.tail := by decide
  exact hall _ ((List.mem_tails _ _).mpr h) k rfl

/-- The slots that are left: the silent steps put in before the next read, and after each answer, are those of the cycle's
events. -/
theorem programEvents_answers (data : List Byte) (answers : Slot → SensValue) (rest : List PortEvent) {ks : List Slot}
    (hks : ks <:+ Slot.all) :
    assemblySteps (selectionOf data) ks ++
        programEvents (selectionOf data) ((ks.filter (requested data)).map (fun k => .sens k (answers k)) ++ rest) =
      ks.flatMap (slotEvents data answers) ++ programEvents (selectionOf data) rest := by
  induction ks with
  | nil => rfl
  | cons k ks ih =>
    have ih := ih ((List.suffix_cons k ks).trans hks)
    rw [assemblySteps, selectionOf_read, List.flatMap_cons, slotEvents, List.filter_cons]
    cases hreq : requested data k with
    | true => simp [programEvents, drop_at_suffix hks, ih]
    | false => simp [ih]

/-- Settles O49: the request's line starts the cycle's selection, the slots go by `programEvents_answers`, and nothing is put
in after the acceptances. -/
theorem programLinesScheduleCycle : Obligations.ProgramLinesScheduleCycle := by
  intro p data answers n sel rest
  have hslots := programEvents_answers data answers
    ((responseFrames (responseBytes p data answers n)).map (fun _ => .txAccept) ++ rest) List.suffix_rfl
  rw [programEvents_accepts] at hslots
  simp only [cycleLines, cycleEvents, List.cons_append, List.append_assoc, programEvents, requestFrame, if_true,
    List.take_length]
  rw [requestedSlots, hslots]

end Sys2Proof.Machine

/-! Proofs of the request decode family (40_request_decode.md): the poll in IDLE, the selector decode, and the frame of the
operations that store nothing. -/

namespace Sys2Proof.Machine

variable {s t : State}

/-! ### The operations of IDLE -/

/-- A poll with no event left consumes nothing (log 2). -/
theorem State.polled_of_nil (h : s.stim = []) : s.polled = s := by
  have hpass : passPoll s.stim = s.stim := by simp [h, passPoll]
  rw [State.polled, hpass]

/-- In IDLE POLL_NONE consumes the poll's answer and does nothing else (40_request_decode.md R50). -/
theorem exec_pollNone_of_idle (hst : s.st = .idle) : exec .pollNone s = .next s.polled := by
  have hexec : exec .pollNone s = .next _ := if_pos hst
  rw [hexec, (execPollNone_next hexec).2]

/-- In IDLE RX_DISCARD consumes the frame and does nothing else (40_request_decode.md R51). -/
theorem exec_rxDiscard_of_idle (hst : s.st = .idle) (id : CanId) (data : List Byte) :
    exec (.rxDiscard id data) s = .next s.polled := by
  have hexec : exec (.rxDiscard id data) s = .next _ := if_pos hst
  rw [hexec, (execRxDiscard_next hexec).2]

/-- Settles O7: POLL_NONE only consumes the answer (`exec_pollNone_of_idle`), and a step with the answer none runs it. -/
theorem pollNoneLeavesStateUnchanged : Obligations.PollNoneLeavesStateUnchanged := by
  refine fun s hst => ⟨fun rest hstim => ?_, fun hstim => ?_, fun rest hflt hstim => ?_⟩
  · rw [exec_pollNone_of_idle hst, State.polled, hstim, passPoll]
  · rw [exec_pollNone_of_idle hst, State.polled_of_nil hstim]
  · rw [frameClassifiedByIdentifierAlone.2 s hst hflt (.inr ⟨rest, hstim⟩), exec_pollNone_of_idle hst,
      State.polled, hstim, passPoll]

/-- Settles O8: RX_DISCARD only consumes the frame (`exec_rxDiscard_of_idle`), and a step runs it for every identifier but
the request's (O4). -/
theorem otherFramesAreDropped : Obligations.OtherFramesAreDropped := by
  refine ⟨fun s id data f rest hst hstim => ?_, fun s f rest hst hflt hstim hin hid => ?_⟩
  · rw [exec_rxDiscard_of_idle hst, State.polled, hstim, passPoll]
  · rw [frameClassifiedByIdentifierAlone.1 s f rest hst hflt hstim hin, if_neg hid, exec_rxDiscard_of_idle hst,
      State.polled, hstim, passPoll]

/-- Settles O9: in IDLE RX_REQUEST answers a next state, which `execRxRequest_next` gives. -/
theorem requestStepWritesSelCurAndSt : Obligations.RequestStepWritesSelCurAndSt := by
  intro s data f rest hst hstim
  have hexec : exec (.rxRequest data) s = .next _ := if_pos hst
  rw [hexec, (execRxRequest_next hexec).2, hstim, passPoll]

/-! ### The selector decode -/

/-- Settles O10: each operation is one write of its slot's selection bit, and such a write leaves the other five
(`setBit_read`). -/
theorem selectorOperationsSetOneFlag : Obligations.SelectorOperationsSetOneFlag := fun s =>
  have cleared (k : Slot) : ∀ j : Slot,
      (setBit s.sel k false).getLsbD j.index = if j = k then false else s.selected j := fun j => setBit_read s.sel j k false
  ⟨fun k => ⟨setBit s.sel k true, rfl, fun j => setBit_read s.sel j k true⟩,
    fun k _ => ⟨setBit s.sel k false, rfl, cleared k⟩, fun k => ⟨setBit s.sel k false, rfl, cleared k⟩, fun _ _ => rfl⟩

/-- Payloads that agree on their first `min(len, 6)` bytes ask for the same slots (40_request_decode.md R57). -/
theorem requested_congr {data data' : List Byte} (hlen : min data.length 6 = min data'.length 6)
    (hbytes : ∀ i, i < min data.length 6 → data[i]? = data'[i]?) (k : Slot) : requested data k = requested data' k := by
  unfold requested
  rw [← hlen]
  by_cases hk : k.index < min data.length 6
  · rw [hbytes _ hk]
  · simp [hk]

/-- Settles O12: the decode writes `sel` alone (`decodeSelectors_frame`), and what it leaves there is the payload's selection
whatever the state (`decodeSelectors_sel`). -/
theorem selectionIsPureFunctionOfPayload : Obligations.SelectionIsPureFunctionOfPayload := by
  refine ⟨fun s data => ⟨selectionOf data, ?_, selectionOf_read data⟩, fun s t data data' hlen hbytes => ?_⟩
  · rw [decodeSelectors_frame, decodeSelectors_sel]
  · rw [decodeSelectors_sel, decodeSelectors_sel]
    exact sel_ext fun k => by rw [selectionOf_read, selectionOf_read, requested_congr hlen hbytes k]

/-! ### The frame of the operations that store nothing, format by format -/

/-- An operation of format RXF consumes the poll's answer; RX_REQUEST also writes `sel`, `cur`, `st` and the log. -/
theorem exec_rxf_next {i : Instr} (hfmt : i.format = .rxf) (h : exec i s = .next t) :
    t = s.polled ∨ ∃ data, i = .rxRequest data ∧ t = { s with
      sel := selectionOf data, cur := 0, st := .asm .methane, stim := passPoll s.stim, log := s.log ++ [.polled data] } := by
  cases i with
  | pollNone => exact .inl (execPollNone_next h).2
  | rxDiscard => exact .inl (execRxDiscard_next h).2
  | rxRequest data => exact .inr ⟨data, rfl, (execRxRequest_next h).2⟩
  | _ => cases hfmt

/-- An operation of format SEL writes at most `sel`. -/
theorem exec_sel_next {i : Instr} (hfmt : i.format = .sel) (h : exec i s = .next t) : ∃ r, t = { s with sel := r } := by
  cases i with
  | selReq | selSkip | selAbsent | selIgnored => cases h; exact ⟨_, rfl⟩
  | _ => cases hfmt

/-- An operation of format TXF writes at most the sequencer state, the events to come and the log. -/
theorem exec_txf_next {i : Instr} (hfmt : i.format = .txf) (h : exec i s = .next t) :
    ∃ st stim log, t = { s with st := st, stim := stim, log := log } := by
  cases i with
  | txF1 =>
    obtain ⟨-, ⟨-, rfl⟩ | ⟨rest, -, rfl⟩⟩ := execTxF1_next h
    · exact ⟨_, _, _, rfl⟩
    · exact ⟨_, _, _, afterF1_eq _⟩
  | txF2 => obtain ⟨-, ⟨-, rfl⟩ | ⟨rest, -, rfl⟩⟩ := execTxF2_next h <;> exact ⟨_, _, _, rfl⟩
  | noF2 => obtain ⟨-, -, rfl⟩ := execNoF2_next h; exact ⟨_, _, _, rfl⟩
  | _ => cases hfmt

/-- Settles O46: format by format, from what its operations write at most. -/
theorem nonStoringOperationsFrame : Obligations.NonStoringOperationsFrame := by
  intro i s t hslot h
  cases hfmt : i.format with
  | slotop => exact absurd hfmt hslot
  | rxf =>
    obtain rfl | ⟨data, rfl, rfl⟩ := exec_rxf_next hfmt h
    · exact ⟨fun _ => rfl, rfl, rfl, fun _ => rfl, fun _ => rfl, nofun⟩
    · exact ⟨fun _ => rfl, rfl, rfl, fun hno => absurd rfl (hno data), by simp, nofun⟩
  | sel =>
    obtain ⟨r, rfl⟩ := exec_sel_next hfmt h
    refine ⟨fun _ => rfl, rfl, rfl, fun _ => rfl, fun hkeeps => ?_, fun _ => ⟨rfl, rfl, rfl⟩⟩
    rcases hkeeps with htxf | rfl | ⟨id, data, rfl⟩
    · cases htxf
    · cases hfmt
    · cases hfmt
  | txf =>
    obtain ⟨st, stim, log, rfl⟩ := exec_txf_next hfmt h
    exact ⟨fun _ => rfl, rfl, rfl, fun _ => rfl, fun _ => rfl, nofun⟩

end Sys2Proof.Machine

/-! Proofs of the field encode family (41_field_encode.md): the two encoders, the issue, the completions and the fills of the
slots, `put`, the overrun, and the frame of the storing operations. -/

namespace Sys2Proof.Machine

variable {s t : State}

/-! ### The encoders -/

/-- Settles O14: the two bytes are the word's halves, the high one first. -/
theorem wideEncoderIsMsbFirst : Obligations.WideEncoderIsMsbFirst := by
  refine ⟨fun v => ⟨v.extractLsb' 8 8, v.extractLsb' 0 8, rfl, ?_, ?_⟩, rfl, rfl, rfl, rfl, rfl⟩
  · rw [BitVec.extractLsb'_toNat, Nat.shiftRight_eq_div_pow]
    omega
  · rw [BitVec.extractLsb'_toNat, Nat.shiftRight_zero]

theorem truncRat_of_nonneg {x : Rat} (hx : 0 ≤ x) : truncRat x = ⌊x⌋ := by
  rw [truncRat, Int.tdiv_eq_ediv_of_nonneg (Rat.num_nonneg.mpr hx), Rat.floor_def']

theorem truncRat_of_neg {x : Rat} (hx : x < 0) : truncRat x = ⌈x⌉ := by
  have hnum : 0 ≤ -x.num := Int.neg_nonneg_of_nonpos (Rat.num_neg.mpr hx).le
  rw [truncRat, ← Int.neg_neg x.num, Int.neg_tdiv, Int.tdiv_eq_ediv_of_nonneg hnum, Rat.ceil_def']

/-- `truncRat x` is the one integer part of `x` toward zero: its floor from zero on, its ceiling below. -/
theorem isTrunc_iff {x : Rat} {z : Int} : IsTrunc x z ↔ truncRat x = z := by
  rcases le_or_gt 0 x with hx | hx
  · rw [truncRat_of_nonneg hx, Int.floor_eq_iff]
    exact ⟨fun h => h.1 hx, fun h => ⟨fun _ => h, fun hneg => absurd hx (not_le.mpr hneg)⟩⟩
  · rw [truncRat_of_neg hx, Int.ceil_eq_iff]
    exact ⟨fun h => (h.2 hx).symm, fun h => ⟨fun hpos => absurd hx (not_lt.mpr hpos), fun _ => h.symm⟩⟩

/-- `T8` of a finite reading is its integer part modulo 256 (41_field_encode.md R58). -/
theorem t8_finite_toNat {x : Rat} {z : Int} (h : IsTrunc x z) (d : Byte) : ((t8 d (.finite x)).toNat : Int) = z % 256 := by
  rw [t8, isTrunc_iff.mp h, BitVec.toNat_ofInt]
  omega

/-- Settles O15: `truncRat` is the integer part (`isTrunc_iff`), of which `T8` keeps the low 8 bits. -/
theorem truncatingEncoderWrapsTowardZero : Obligations.TruncatingEncoderWrapsTowardZero :=
  ⟨fun d _ _ h => t8_finite_toNat h d, fun x => ⟨truncRat x, isTrunc_iff.mpr rfl⟩, fun _ _ => rfl⟩

/-! ### The issue and the completions -/

/-- Settles O6: one lemma of the step per sequencer state. -/
theorem sequencerReachesItsOperation : Obligations.SequencerReachesItsOperation := by
  intro s hno hflt
  have hr := resetNow_eq_none.mpr hno
  refine ⟨fun k hst hsel => ?_, fun k hst hsel => ?_, fun k hst => step_wait hr hflt hst, step_tx1 hr hflt, step_tx2 hr hflt⟩
  · rw [step_asm hr hflt hst, if_pos hsel]
  · rw [step_asm hr hflt hst, hsel, if_neg Bool.false_ne_true]

/-- Settles O21: the issue is a step that needs no agent, so with none acting it issues. -/
theorem encodeIssuesReadAndWaits : Obligations.EncodeIssuesReadAndWaits := by
  intro s k hst hquiet
  rw [exec_encOf, encodeSlot_issue hst, quietStep_of hquiet]
  rfl

/-- Two bytes written from an index on: each reads back at its own, and every other byte is as before. -/
theorem writeBytes_pair_read {m : Memory} (hwf : m.wf = true) {a : Nat} (ha : a + 2 ≤ 9) (hi lo : Byte) :
    (writeBytes m a [hi, lo]).read a = hi ∧ (writeBytes m a [hi, lo]).read (a + 1) = lo ∧
      ∀ i, ¬ (a ≤ i ∧ i < a + 2) → (writeBytes m a [hi, lo]).read i = m.read i := by
  refine ⟨?_, ?_, fun i hout => ?_⟩ <;> rw [writeBytes_read hwf a [hi, lo] ha]
  · simp
  · simp
  · exact if_neg hout

/-- Settles O16: the answer's two bytes are its quotient and remainder by 256, written from the slot's offset on. -/
theorem wideCompletionWritesTwoBytes : Obligations.WideCompletionWritesTwoBytes := by
  intro s k n rest hk hwf hst hcur hn hstim
  obtain ⟨hv, hwidth⟩ : answerInType s.params.float k (.wide n) ∧ k.width = 2 := by
    have hrange : (0 : Int) ≤ n ∧ (n : Int) ≤ 65535 := by omega
    rcases hk with rfl | rfl | rfl <;> exact ⟨hrange, rfl⟩
  have hexec := exec_encOf_answered_at_offset hst hcur hstim hv
  have hfits := Slot.end_le k
  simp only [ownsIndex, hwidth] at hexec hfits ⊢
  obtain ⟨hhi, hlo, hother⟩ := writeBytes_pair_read hwf hfits (BitVec.ofInt 8 (n / 256)) (BitVec.ofInt 8 n)
  refine ⟨_, hexec, ?_, ?_, hother⟩
  · rw [answerBytes, hhi, BitVec.toNat_ofInt]
    omega
  · rw [answerBytes, hlo, BitVec.toNat_ofInt]
    omega

/-- Settles O17: under the exact mean the derived value of O19 is finite, so it draws nothing and `T8` wraps its integer
part. -/
theorem meanCompletionWritesTruncatedMean : Obligations.MeanCompletionWritesTruncatedMean := by
  intro s k a c z rest hk hwf hst hcur hmean ha hc hz hstim
  have hv : answerInType s.params.float k (.pair (.finite a) (.finite c)) := by
    rcases hk with rfl | rfl <;> exact ⟨ha, hc⟩
  have hx : Reading.finite ((a + c) / 2) = pMean s.params.mean (.finite a) (.finite c) := by rw [hmean]; rfl
  obtain ⟨m, hexec, hread, hother⟩ := everyConfigurationEncodesItsDerivedValue s k _ _ rest hwf hst hcur hstim hv
    (.inl ⟨hk, _, _, rfl, hx⟩)
  exact ⟨m, hexec, hread ▸ t8_finite_toNat hz _, hother⟩

/-- Settles O18: under the exact quotient the derived value of O19 is finite, so it draws nothing and `T8` wraps its integer
part. -/
theorem pressureCompletionWritesTruncatedKpa : Obligations.PressureCompletionWritesTruncatedKpa := by
  intro s p z rest hwf hst hcur hkpa hp hz hstim
  have hx : Reading.finite (p / 1000) = pKpa s.params.kpa (.finite p) := by rw [hkpa]; rfl
  obtain ⟨m, hexec, hread, hother⟩ := everyConfigurationEncodesItsDerivedValue s .pressure _ _ rest hwf hst hcur hstim hp
    (.inr ⟨rfl, _, rfl, hx⟩)
  exact ⟨m, hexec, hread ▸ t8_finite_toNat hz _, hother⟩

/-- A mean with a non-finite operand is non-finite, whatever the configuration (41_field_encode.md R60). -/
theorem pMean_nonFinite (d : Derivation) (n : NonFinite) (b : Reading) :
    (∃ m, pMean d (.nonFinite n) b = .nonFinite m) ∧ ∃ m, pMean d b (.nonFinite n) = .nonFinite m := by
  cases b <;> exact ⟨⟨_, rfl⟩, ⟨_, rfl⟩⟩

/-- Settles O20: the derived value of O19 is non-finite too, so `T8` draws the next free byte. -/
theorem nonFiniteReadingDrawsByte : Obligations.NonFiniteReadingDrawsByte := by
  intro s k v rest hwf hst hcur hstim hv hx
  obtain ⟨n, hderived⟩ : ∃ n : NonFinite,
      (k = .temperature ∨ k = .humidity) ∧ (∃ a c, v = .pair a c ∧ .nonFinite n = pMean s.params.mean a c) ∨
        k = .pressure ∧ ∃ p, v = .single p ∧ .nonFinite n = pKpa s.params.kpa p := by
    obtain ⟨hk, n, b, rfl | rfl⟩ | ⟨hk, n, rfl⟩ := hx
    · obtain ⟨m, hm⟩ := (pMean_nonFinite s.params.mean n b).1
      exact ⟨m, .inl ⟨hk, _, _, rfl, hm.symm⟩⟩
    · obtain ⟨m, hm⟩ := (pMean_nonFinite s.params.mean n b).2
      exact ⟨m, .inl ⟨hk, _, _, rfl, hm.symm⟩⟩
    · exact ⟨_, .inr ⟨hk, _, rfl, rfl⟩⟩
  exact everyConfigurationEncodesItsDerivedValue s k v _ rest hwf hst hcur hstim hv hderived

/-! ### The fills -/

/-- A fill in which no agent acts, with the cursor at the slot, as the exact next state. -/
theorem fillSlot_at_offset {k : Slot} (hst : s.st = .asm k) (hcur : s.cur = k.offset) (hquiet : quiet s.stim) (v : Byte) :
    fillSlot k v s = .next { s with
      buf := writeBytes s.buf k.offset (List.replicate k.width v), cur := k.offset + k.width, st := nextOf k,
      stim := passSilent s.stim } := by
  rw [fillSlot_eq hst, quietStep_of hquiet, writeSlot_at_offset (s := s.tick) hcur List.length_replicate]
  rfl

/-- A slot's bytes after its filler was written. -/
theorem writeBytes_filler_read {m : Memory} (hwf : m.wf = true) (k : Slot) (v : Byte) :
    (∀ a, ownsIndex k a → (writeBytes m k.offset (List.replicate k.width v)).read a = v) ∧
      ∀ a, ¬ ownsIndex k a → (writeBytes m k.offset (List.replicate k.width v)).read a = m.read a := by
  have hfits : k.offset + (List.replicate k.width v).length ≤ 9 := List.length_replicate ▸ Slot.end_le k
  simp only [ownsIndex, writeBytes_read hwf _ _ hfits, List.length_replicate]
  refine ⟨fun a ha => ?_, fun a ha => if_neg ha⟩
  rw [if_pos ha, List.getD_replicate _ (by omega)]

/-- Settles O22: the filler of the first five slots is 0xFF, written in each of the slot's bytes. -/
theorem fillWritesFillerBytes : Obligations.FillWritesFillerBytes := by
  intro s k hk hwf hst hcur hquiet
  have hfiller : fillerOf k = 0xFF := by cases k <;> rfl
  refine ⟨_, (exec_fillOf k s).trans (fillSlot_at_offset hst hcur hquiet _), ?_⟩
  rw [hfiller]
  exact writeBytes_filler_read hwf k 0xFF

/-- The fill of the pressure slot writes byte 8, whatever the filler. -/
theorem fillSlot_pressure (hwf : s.buf.wf = true) (hst : s.st = .asm .pressure) (hcur : s.cur = 8) (hquiet : quiet s.stim)
    (v : Byte) :
    ∃ m : Memory, fillSlot .pressure v s = .next { s with buf := m, cur := 9, st := .tx1, stim := passSilent s.stim } ∧
      m.read 8 = v ∧ ∀ a, a ≠ 8 → m.read a = s.buf.read a := by
  refine ⟨s.buf.write 8 v, fillSlot_at_offset hst hcur hquiet v, ?_, fun a ha => ?_⟩
  · rw [Memory.read_write hwf, if_pos rfl]
  · rw [Memory.read_write hwf, if_neg ha]

/-- Settles O23: the fill writes byte 8 (`fillSlot_pressure`), which alone decides F2. -/
theorem pressureFillMakesSecondFrameDue : Obligations.PressureFillMakesSecondFrameDue := by
  intro s hwf hst hcur hquiet
  obtain ⟨m, hfill, hread, hother⟩ := fillSlot_pressure hwf hst hcur hquiet Config.presFill
  obtain ⟨m', hfill', hread', -⟩ := fillSlot_pressure hwf hst hcur hquiet Config.presFillPatched
  refine ⟨⟨m, hfill, hread, ?_, hother⟩, m', hfill', hread', secondFrame_eq_false.mpr hread'⟩
  rw [secondFrame, show m.read Config.f1Len = Config.presFill from hread]
  rfl

/-! ### put and the overrun -/

theorem mem_raiseFault_flt {r f : Fault} : r ∈ (raiseFault f s).flt ↔ r ∈ s.flt ∨ r = f := by
  rw [raiseFault_flt]
  split_ifs with hf
  · exact ⟨.inl, fun h => h.elim id fun he => he ▸ hf⟩
  · rw [List.mem_append, List.mem_singleton]

/-- Settles O25: below 9 `put` is a buffer write at the cursor, from 9 on it raises the fault. -/
theorem putWritesOrRaisesOverrun : Obligations.PutWritesOrRaisesOverrun := by
  refine fun v s hwf => ⟨fun hcur => ⟨_, put_ok hcur v, Memory.write_wf hwf hcur v, ?_, fun a ha => ?_⟩,
    fun hcur => ⟨_, put_overrun hcur v, fun r => mem_raiseFault_flt⟩⟩
  · rw [Memory.read_write hwf, if_pos rfl]
  · rw [Memory.read_write hwf, if_neg ha]

/-- The end of a slot's step whose bytes do not fit records the overrun; `st`, `sel` and the log stay. -/
theorem writeSlot_overrun {k : Slot} {bytes : List Byte} (hlen : bytes.length = k.width) (hover : 9 < s.cur + k.width) :
    ∃ t, writeSlot k bytes s = .next t ∧ Fault.bufferOverrun ∈ t.flt ∧ t.st = s.st ∧ t.sel = s.sel ∧ t.log = s.log := by
  obtain ⟨t, ht, hfit | ⟨-, hflt, -, hst⟩, hsel, -, hlog, -⟩ :=
    writeSlot_frame k bytes (ne_nil_of_length_eq_width hlen) s
  · omega
  · exact ⟨t, ht, hflt, hst, hsel, hlog⟩

/-- Settles O26: a fill and a completion both end in the slot's write, which overruns (`writeSlot_overrun`); then the core
is halted (`step_halted`). -/
theorem overrunRecordsFaultAndStopsCore : Obligations.OverrunRecordsFaultAndStopsCore := by
  refine ⟨fun s k hst hquiet hover => ?_, fun s k v rest hst hstim hv hover => ?_, fun s hmem hno => ?_⟩
  · rw [exec_fillOf, fillSlot_eq hst, quietStep_of hquiet]
    exact writeSlot_overrun (s := s.tick) List.length_replicate hover
  · rw [exec_encOf_answered hst hstim hv]
    exact writeSlot_overrun (s := { s with stim := rest, draws := _ }) (answerBytes_length hv _ _) hover
  · obtain ⟨⟨⟩, -, hstep⟩ := step_halted (resetNow_eq_none.mpr hno) (List.ne_nil_of_mem hmem)
    exact hstep

/-- The outcome is no fault. -/
def NeverFaults (x : Result) : Prop := ∀ r, x ≠ .fault r

theorem NeverFaults.next (s : State) : NeverFaults (.next s) := nofun

theorem NeverFaults.refused (r : Refusal) : NeverFaults (.refused r) := nofun

theorem NeverFaults.ite {p : Prop} [Decidable p] {x y : Result} (hx : NeverFaults x) (hy : NeverFaults y) :
    NeverFaults (if p then x else y) := by
  split
  · exact hx
  · exact hy

theorem quietStep_neverFaults {act : State → Result} (hact : NeverFaults (act s.tick)) : NeverFaults (quietStep act s) := by
  rcases quietStep_cases act s with ⟨r, h, -⟩ | h
  · exact h ▸ .refused r
  · rwa [h]

theorem writeSlot_neverFaults (k : Slot) (bytes : List Byte) (s : State) : NeverFaults (writeSlot k bytes s) := by
  unfold writeSlot
  split <;> exact .next _

theorem completionOf_neverFaults (k : Slot) (v : SensValue) (s : State) : NeverFaults (completionOf k v s) := by
  rcases completionOf_cases k v s with ⟨r, h, -⟩ | ⟨bytes, n, -, -, -, h⟩
  · exact h ▸ .refused r
  · rw [h]
    exact writeSlot_neverFaults k bytes _

theorem awaitSensor_neverFaults (k : Slot) (s : State) : NeverFaults (awaitSensor k (completionOf k) s) := by
  rcases awaitSensor_cases k (completionOf k) s with ⟨r, h, -⟩ | ⟨-, h⟩ | ⟨v, rest, -, h⟩
  · exact h ▸ .refused r
  · exact h ▸ .next _
  · rw [h]
    exact completionOf_neverFaults k v _

theorem awaitAccept_neverFaults (f : State → State) (s : State) : NeverFaults (awaitAccept f s) := by
  rcases awaitAccept_cases f s with ⟨r, h, -⟩ | ⟨-, h⟩ | ⟨rest, -, h⟩
  · exact h ▸ .refused r
  · exact h ▸ .next _
  · exact h ▸ .next _

/-- No operation is itself a fault: an overrun is recorded in a next state (log 15). -/
theorem exec_neverFaults (i : Instr) (s : State) : NeverFaults (exec i s) := by
  by_cases hfmt : i.format = .slotop
  · obtain ⟨k, rfl | rfl⟩ := slotop_cases i hfmt
    · rw [exec_encOf]
      exact .ite (quietStep_neverFaults (.next _)) (.ite (awaitSensor_neverFaults k s) (.refused _))
    · rw [exec_fillOf]
      exact .ite (quietStep_neverFaults (writeSlot_neverFaults k _ _)) (.refused _)
  cases i with
  | pollNone | rxDiscard | rxRequest | noF2 => exact .ite (.next _) (.refused _)
  | selReq | selSkip | selAbsent | selIgnored => exact .next _
  | txF1 | txF2 => exact .ite (awaitAccept_neverFaults _ s) (.refused _)
  | encMethane | encCo2 | encCo | encTemp | encHum | encPres | fillMethane | fillCo2 | fillCo | fillTemp | fillHum
  | fillPres => exact absurd rfl hfmt

/-- A core with no fault recorded takes no step that is a fault. -/
theorem step_neverFaults (hflt : s.flt = []) : NeverFaults (step s) := by
  unfold step
  split
  · exact .next _
  · simp only [halted, hflt, List.head?_nil]
    split
    · exact .refused _
    · split
      · exact .refused _
      · exact exec_neverFaults _ s

/-- Settles O37: the invariant has no fault recorded, and every step keeps it (O36). -/
theorem overrunIsUnreachable : Obligations.OverrunIsUnreachable := fun s hinv =>
  ⟨step_neverFaults hinv.noFault, fun t hstep => (stepKeepsInvariant s t hinv hstep).noFault⟩

/-! ### The frame of the storing operations -/

/-- The end of a slot's step draws no byte, and where the slot's bytes fit it records no fault. -/
theorem writeSlot_draws_flt {k : Slot} {bytes : List Byte} (hlen : bytes.length = k.width)
    (h : writeSlot k bytes s = .next t) : t.draws = s.draws ∧ (s.cur + k.width ≤ 9 → t.flt = s.flt) := by
  obtain ⟨u, hu, hend, -, -, -, ⟨hdraws, -⟩, -⟩ := writeSlot_frame k bytes (ne_nil_of_length_eq_width hlen) s
  cases h.symm.trans hu
  refine ⟨hdraws, fun hfits => ?_⟩
  rcases hend with ⟨-, hflt, -⟩ | ⟨hover, -⟩
  · exact hflt
  · omega

/-- The end of a slot's step writes no selection flag, records no fault where the slot's bytes fit, and leaves every byte
outside the slot at the cursor. -/
theorem writeSlot_keeps {k : Slot} {bytes : List Byte} (hwf : s.buf.wf = true) (hlen : bytes.length = k.width)
    (h : writeSlot k bytes s = .next t) :
    t.sel = s.sel ∧ (s.cur + k.width ≤ 9 → t.flt = s.flt) ∧
      ∀ a, ¬ (s.cur ≤ a ∧ a < s.cur + k.width) → t.buf.read a = s.buf.read a := by
  obtain ⟨hsel, -, hbuf⟩ := writeSlot_next hlen h
  exact ⟨hsel, (writeSlot_draws_flt hlen h).2, hbuf hwf⟩

/-- What a fill leaves alone at the ports. -/
theorem execFill_log_draws {k : Slot} (h : exec (.fillOf k) s = .next t) : t.log = s.log ∧ t.draws = s.draws := by
  have hwrite := (execFill_next h).2
  have hlog := writeSlot_log List.length_replicate hwrite
  have hdraws := (writeSlot_draws_flt List.length_replicate hwrite).1
  exact ⟨hlog, hdraws⟩

/-- An encode operation logs at most its slot's read and draws at most one byte, a wide one none. -/
theorem execEnc_log_draws {k : Slot} (h : exec (.encOf k) s = .next t) :
    (t.log = s.log ∨ t.log = s.log ++ [.read k]) ∧
      (t.draws = s.draws ∨ t.draws = s.draws + 1) ∧ (k.width = 2 → t.draws = s.draws) := by
  rcases execEnc_next h with ⟨-, rfl⟩ | ⟨-, -, rfl⟩ | ⟨-, v, rest, bytes, n, -, hlen, hn, hwide, hwrite⟩
  · exact ⟨.inr rfl, .inl rfl, fun _ => rfl⟩
  · exact ⟨.inl rfl, .inl rfl, fun _ => rfl⟩
  · have hlog := writeSlot_log hlen hwrite
    have hdraws := (writeSlot_draws_flt hlen hwrite).1
    simp only at hlog hdraws
    exact ⟨.inl hlog, by omega, fun hw => by rw [hdraws, hwide hw, Nat.add_zero]⟩

/-- Settles O47: an operation that stores ends in the slot's write (`writeSlot_keeps`); the issue and the hold store
nothing. -/
theorem slotOperationsFrame : Obligations.SlotOperationsFrame := by
  intro k s t hwf h
  have hkeeps : t.sel = s.sel ∧ (s.cur + k.width ≤ 9 → t.flt = s.flt) ∧
      ∀ a, ¬ (s.cur ≤ a ∧ a < s.cur + k.width) → t.buf.read a = s.buf.read a := by
    rcases h with h | h
    · rcases execEnc_next h with ⟨-, rfl⟩ | ⟨-, -, rfl⟩ | ⟨-, v, rest, bytes, n, -, hlen, -, -, hwrite⟩
      · exact ⟨rfl, fun _ => rfl, fun _ _ => rfl⟩
      · exact ⟨rfl, fun _ => rfl, fun _ _ => rfl⟩
      · exact writeSlot_keeps (s := { s with stim := rest, draws := s.draws + n }) hwf hlen hwrite
    · exact writeSlot_keeps (s := s.tick) hwf List.length_replicate (execFill_next h).2
  obtain ⟨hsel, hflt, hbuf⟩ := hkeeps
  exact ⟨hsel, hflt, hbuf, execFill_log_draws, execEnc_log_draws⟩

end Sys2Proof.Machine

/-! Proofs of the frame dispatch family (42_frame_dispatch.md): the two acceptances, and the cycle that ends without F2. -/

namespace Sys2Proof.Machine

variable {s : State} {rest : List PortEvent}

/-! ### The acceptances -/

/-- In TX1 the acceptance completes TX_F1 (42_frame_dispatch.md R78). -/
theorem exec_txF1_accepted (hst : s.st = .tx1) (hstim : s.stim = .txAccept :: rest) :
    exec .txF1 s = .next (afterF1 { s with stim := rest }) := by
  simp only [exec, execTxF1, if_pos hst, awaitAccept, hstim]

/-- In TX2 the acceptance completes TX_F2 (42_frame_dispatch.md R79). -/
theorem exec_txF2_accepted (hst : s.st = .tx2) (hstim : s.stim = .txAccept :: rest) :
    exec .txF2 s = .next (afterF2 { s with stim := rest }) := by
  simp only [exec, execTxF2, if_pos hst, awaitAccept, hstim]

/-- With byte 8 zero, F1's acceptance logs F1 and ends the cycle (42_frame_dispatch.md R80). -/
theorem afterF1_of_zero (h : s.buf.read 8 = 0) :
    afterF1 s = { s with st := .idle, log := s.log ++ [.sent (frame1 s.buf)] } := by
  rw [afterF1_eq, if_pos h]

/-- Settles O28: the acceptance completes TX_F1 (`exec_txF1_accepted`), whose next state byte 8 decides (`afterF1_eq`). -/
theorem acceptedF1IsSentAndDecidesF2 : Obligations.AcceptedF1IsSentAndDecidesF2 := by
  intro s rest hst hstim
  rw [exec_txF1_accepted hst hstim, afterF1_eq]
  simp only [ne_eq, ite_not]
  rfl

/-- Settles O29: the acceptance completes TX_F2 (`exec_txF2_accepted`), and F2 is byte 8 alone. -/
theorem acceptedF2IsSentAndEndsCycle : Obligations.AcceptedF2IsSentAndEndsCycle :=
  fun _ _ hst hstim => exec_txF2_accepted hst hstim

/-- Settles O30: byte 8 zero is NO_F2's guard, and it makes F1's acceptance end the cycle too (`afterF1_of_zero`). -/
theorem zeroByte8EndsCycleWithoutF2 : Obligations.ZeroByte8EndsCycleWithoutF2 := by
  refine fun s hst hzero => ⟨if_pos ⟨hst, secondFrame_eq_false.mpr hzero⟩, fun rest hstim => ?_⟩
  have hafter : afterF1 { s with stim := rest } = _ := afterF1_of_zero hzero
  exact ⟨_, hafter ▸ exec_txF1_accepted hst hstim, rfl, rfl, rfl⟩

/-! ### The small pressure -/

/-- The integer part of a value strictly between -1 and 1 is zero. -/
theorem isTrunc_zero {x : Rat} (hlo : -1 < x) (hhi : x < 1) : IsTrunc x 0 :=
  ⟨fun hx => ⟨by simpa using hx, by simpa using hhi⟩, fun hx => ⟨by simpa using hx.le, by simpa using hlo⟩⟩

/-- Settles O33: a pressure below 1 kPa in magnitude truncates to zero (`isTrunc_zero`), so the completion (O18) leaves byte 8
zero, and F1's acceptance then ends the cycle (`afterF1_of_zero`). -/
theorem smallPressureWithholdsF2 : Obligations.SmallPressureWithholdsF2 := by
  intro s p rest hwf hflt hst hcur hkpa hp hlo hhi hstim
  have htrunc : IsTrunc (p / 1000) 0 := isTrunc_zero (by linarith) (by linarith)
  obtain ⟨m, hexec, hread, -⟩ :=
    pressureCompletionWritesTruncatedKpa s p 0 (.txAccept :: rest) hwf hst hcur hkpa hp htrunc hstim
  have hzero : m.read 8 = 0 := BitVec.eq_of_toNat_eq (by simpa using hread)
  have hstep := (step_wait (resetNow_eq_none.mpr (by simp [hstim])) hflt hst).trans hexec
  have haccept := step_tx1_accepted (s := { s with buf := m, cur := 9, st := .tx1, stim := .txAccept :: rest }) rfl hflt rfl
  rw [afterF1_of_zero hzero] at haccept
  exact ⟨_, _, hstep, hzero, haccept, rfl, rfl, rfl⟩

end Sys2Proof.Machine

/-! Proofs of the exceptions family (60_exceptions.md): the sticky faults, the inputs outside the port types, and the
holds. -/

namespace Sys2Proof.Machine

variable {s t : State}

/-! ### The sticky faults -/

/-- The end of a slot's step loses no recorded fault, whether or not the bytes fit. -/
theorem writeSlot_keeps_faults {k : Slot} {bytes : List Byte} (hlen : bytes.length = k.width)
    (h : writeSlot k bytes s = .next t) : ∀ r ∈ s.flt, r ∈ t.flt := by
  obtain ⟨u, hu, hend, -⟩ := writeSlot_frame k bytes (ne_nil_of_length_eq_width hlen) s
  cases h.symm.trans hu
  rcases hend with ⟨-, hflt, -⟩ | ⟨-, -, hkeeps, -⟩
  · exact fun r hr => hflt ▸ hr
  · exact hkeeps

/-- No operation loses a recorded fault: a slot operation that stores ends in the slot's write, and every other one leaves
the record as it is. -/
theorem exec_keeps_faults {i : Instr} (h : exec i s = .next t) : ∀ r ∈ s.flt, r ∈ t.flt := by
  by_cases hfmt : i.format = .slotop
  · obtain ⟨k, rfl | rfl⟩ := slotop_cases i hfmt
    · rcases execEnc_next h with ⟨-, rfl⟩ | ⟨-, -, rfl⟩ | ⟨-, v, rest, bytes, n, -, hlen, -, -, hwrite⟩
      · exact fun _ hr => hr
      · exact fun _ hr => hr
      · exact writeSlot_keeps_faults (s := { s with stim := rest, draws := s.draws + n }) hlen hwrite
    · exact writeSlot_keeps_faults (s := s.tick) List.length_replicate (execFill_next h).2
  · obtain ⟨-, hflt, -⟩ := nonStoringOperationsFrame i s t hfmt h
    exact fun r hr => hflt ▸ hr

/-- Settles O27: no operation loses a fault (`exec_keeps_faults`), and a step that is no reset has found none recorded
(`step_next`). -/
theorem faultsAreSticky : Obligations.FaultsAreSticky := by
  refine ⟨fun i s t h => exec_keeps_faults h, fun s t hno hstep => ?_⟩
  rcases step_next hstep with ⟨d, rest, hstim, -⟩ | ⟨-, hflt, -⟩
  · exact absurd hstim (hno d rest)
  · exact hflt

/-! ### The inputs outside the port types -/

/-- The RX port refuses a frame that breaks one of its limits. -/
theorem portFrame_outOfType {f : RxFrame} (h : 8 < f.len ∨ 0x7FF < f.id ∨ f.extended = true ∨ f.remote = true) :
    ∃ r, portFrame f = .error r := by
  rcases portFrame_cases f with herror | ⟨hlen, hid, -, hext, hremote, -⟩
  · exact herror
  · exact absurd h (by simp [hlen, hid, hext, hremote])

section Answer

variable {j k : Slot} {v : SensValue} {rest : List PortEvent}

theorem quietStep_answered (hstim : s.stim = .sens j v :: rest) (act : State → Result) :
    quietStep act s = .refused .answerWithoutRead := by
  simp only [quietStep, hstim]

theorem awaitAccept_answered (hstim : s.stim = .sens j v :: rest) (accepted : State → State) :
    awaitAccept accepted s = .refused .answerWithoutRead := by
  simp only [awaitAccept, hstim]

/-- Where no read is outstanding, a sensor's answer is refused (60_exceptions.md R84). -/
theorem step_answerWithoutRead (hst : s.st = .idle ∨ (∃ k, s.st = .asm k) ∨ s.st = .tx1 ∨ s.st = .tx2)
    (hflt : s.flt = []) (hstim : s.stim = .sens j v :: rest) : step s = .refused .answerWithoutRead := by
  have hno : resetNow s = none := resetNow_eq_none.mpr (by simp [hstim])
  rcases hst with hst | ⟨k, hst⟩ | hst | hst
  · exact step_idle_refused hno hflt hst (by rw [hstim, fetchPoll])
  · rw [step_asm hno hflt hst]
    cases s.selected k with
    | true => rw [if_pos rfl, exec_encOf, encodeSlot_issue hst, quietStep_answered hstim]
    | false => rw [if_neg (by decide), exec_fillOf, fillSlot_eq hst, quietStep_answered hstim]
  · rw [step_tx1 hno hflt hst]
    exact (if_pos hst).trans (awaitAccept_answered hstim _)
  · rw [step_tx2 hno hflt hst]
    exact (if_pos hst).trans (awaitAccept_answered hstim _)

/-- In WAIT(k) an answer for slot `k` goes to the slot's completion, and one for another slot is refused. -/
theorem step_wait_sens (hst : s.st = .wait k) (hflt : s.flt = []) (hstim : s.stim = .sens j v :: rest) :
    step s = if j = k then completionOf k v { s with stim := rest } else .refused .answerForOtherSlot := by
  rw [step_wait (resetNow_eq_none.mpr (by simp [hstim])) hflt hst, exec_encOf, encodeSlot_wait hst]
  simp only [awaitSensor, hstim]

/-- A wide reading outside `0..65535` is refused (60_exceptions.md R84). -/
theorem completionOf_wideOutOfRange (hwidth : k.width = 2) {n : Int} (hn : n < 0 ∨ 65535 < n) :
    completionOf k (.wide n) s = .refused .wideReadingOutOfRange := by
  have hrange : ¬ (0 ≤ n ∧ n ≤ 65535) := by omega
  cases k with
  | methane | co2 | co => simp only [completionOf, completeWide, wideAnswer, if_neg hrange]
  | temperature | humidity | pressure => cases hwidth

/-- An answer of another slot's kind is refused (70_reset_and_hazards.md R110). -/
theorem completionOf_wrongKind (hkind : answerOfKind k v = false) :
    completionOf k v s = .refused .answerOfWrongType := by
  cases k with
  | methane | co2 | co =>
    cases v with
    | wide => cases hkind
    | pair | single => rfl
  | temperature | humidity =>
    cases v with
    | pair => cases hkind
    | wide | single => rfl
  | pressure =>
    cases v with
    | single => cases hkind
    | wide | pair => rfl

/-- A narrow slot's answer of the right kind that is not of its type has a reading outside the number format (log 24). -/
theorem completionOf_outsideFormat (hwidth : k.width = 1) (hkind : answerOfKind k v = true)
    (hv : ¬ answerInType s.params.float k v) : completionOf k v s = .refused .readingOutsideFormat := by
  cases k with
  | methane | co2 | co => cases hwidth
  | temperature | humidity =>
    cases v with
    | pair a c =>
      rw [answerInType, ← Bool.and_eq_true] at hv
      simp only [completionOf, completeMean, pairAnswer, if_neg hv]
    | wide | single => cases hkind
  | pressure =>
    cases v with
    | single p =>
      rw [answerInType] at hv
      simp only [completionOf, completeKpa, singleAnswer, if_neg hv]
    | wide | pair => cases hkind

/-- An answer of the slot's type completes the step, wherever the cursor is. -/
theorem completionOf_inType_next (hv : answerInType s.params.float k v) : ∃ t, completionOf k v s = .next t := by
  obtain ⟨t, ht, -⟩ := writeSlot_frame k _ (ne_nil_of_length_eq_width (answerBytes_length hv _ _)) _
  exact ⟨t, (completionOf_inType hv).trans ht⟩

end Answer

/-- Settles O13: a frame is refused by the RX port (`portFrame_outOfType`), an answer where no read is outstanding by
`step_answerWithoutRead`, and in WAIT(k) the completion of the slot decides (`step_wait_sens`). -/
theorem portsRefuseOutOfTypeInputs : Obligations.PortsRefuseOutOfTypeInputs := by
  refine ⟨fun s f rest hst hflt hstim hout => ?_, fun s k n rest hst hflt hwidth hstim hn => ?_,
    fun s k j v rest hst hflt hne hstim => ?_, fun s j v rest => step_answerWithoutRead,
    fun s k v rest hst hflt hstim hkind => ?_, fun s k v rest hst hflt hwidth hstim hkind => ?_⟩
  · obtain ⟨r, hport⟩ := portFrame_outOfType hout
    exact ⟨r, step_idle_refused (resetNow_eq_none.mpr (by simp [hstim])) hflt hst (by simp only [hstim, fetchPoll, hport])⟩
  · rw [step_wait_sens hst hflt hstim, if_pos rfl, completionOf_wideOutOfRange hwidth hn]
  · rw [step_wait_sens hst hflt hstim, if_neg hne]
  · rw [step_wait_sens hst hflt hstim, if_pos rfl, completionOf_wrongKind hkind]
  · rw [step_wait_sens hst hflt hstim, if_pos rfl]
    by_cases hv : answerInType s.params.float k v
    · exact .inl ⟨hv, completionOf_inType_next (s := { s with stim := rest }) hv⟩
    · exact .inr ⟨hv, completionOf_outsideFormat (s := { s with stim := rest }) hwidth hkind hv⟩

/-! ### The holds -/

theorem quiet_iff {stim : List PortEvent} : quiet stim ↔ stim = [] ∨ ∃ rest, stim = .silent :: rest := by
  constructor
  · intro hquiet
    match stim with
    | [] => exact .inl rfl
    | .silent :: rest => exact .inr ⟨rest, rfl⟩
    | .rxNone :: _ | .rx _ :: _ | .sens _ _ :: _ | .txAccept :: _ | .reset _ :: _ => exact hquiet.elim
  · rintro (rfl | ⟨rest, rfl⟩) <;> trivial

/-- When no agent acts, WAIT(k) holds. -/
theorem awaitSensor_quiet (hquiet : quiet s.stim) (k : Slot) (complete : SensValue → State → Result) :
    awaitSensor k complete s = .next s.tick := by
  rcases quiet_iff.mp hquiet with hstim | ⟨rest, hstim⟩
  · rw [State.tick_of_ne (by simp [hstim])]
    simp only [awaitSensor, hstim]
  · simp only [awaitSensor, hstim]

/-- When no agent acts, TX1 and TX2 hold. -/
theorem awaitAccept_quiet (hquiet : quiet s.stim) (accepted : State → State) :
    awaitAccept accepted s = .next s.tick := by
  rcases quiet_iff.mp hquiet with hstim | ⟨rest, hstim⟩
  · rw [State.tick_of_ne (by simp [hstim])]
    simp only [awaitAccept, hstim]
  · simp only [awaitAccept, hstim]

/-- In a hold state a step in which no agent acts takes its silent line, if one is left, and changes nothing else
(60_exceptions.md R85). -/
theorem step_hold (hflt : s.flt = []) (hst : (∃ k, s.st = .wait k) ∨ s.st = .tx1 ∨ s.st = .tx2)
    (hquiet : quiet s.stim) : step s = .next s.tick := by
  have hno : resetNow s = none := resetNow_eq_none.mpr fun d rest hstim => by rw [hstim] at hquiet; exact hquiet
  rcases hst with ⟨k, hst⟩ | hst | hst
  · rw [step_wait hno hflt hst, exec_encOf, encodeSlot_wait hst, awaitSensor_quiet hquiet]
  · rw [step_tx1 hno hflt hst]
    exact (if_pos hst).trans (awaitAccept_quiet hquiet _)
  · rw [step_tx2 hno hflt hst]
    exact (if_pos hst).trans (awaitAccept_quiet hquiet _)

/-- Settles O31: with no event left and with a silent line alike, the step only takes the line (`step_hold`). -/
theorem holdChangesNothing : Obligations.HoldChangesNothing := by
  refine fun s hflt hst => ⟨fun hstim => ?_, fun rest hstim => ?_⟩
  · rw [step_hold hflt hst (quiet_iff.mpr (.inl hstim)), State.tick_of_ne (by simp [hstim])]
  · rw [step_hold hflt hst (quiet_iff.mpr (.inr ⟨rest, hstim⟩)), State.tick, hstim, passSilent]

end Sys2Proof.Machine

/-! Proofs of the reset and hazards family (70_reset_and_hazards.md): the reset event, the endless hold, F2 without a pressure
request, and the wide reading that looks like the filler. -/

namespace Sys2Proof.Machine

variable {s : State}

/-! ### The endless hold -/

theorem passSilent_replicate (m : Nat) : passSilent (List.replicate m .silent) = List.replicate (m - 1) .silent := by
  cases m <;> rfl

theorem quiet_replicate (m : Nat) : quiet (List.replicate m .silent) := by
  cases m <;> trivial

/-- Settles O32: by induction on the steps, each a hold that takes one silent line, if one is left (`step_hold`). -/
theorem unansweredHoldLastsForever : Obligations.UnansweredHoldLastsForever := by
  intro s m n hflt hst hstim
  induction n generalizing s m with
  | zero => rw [run_zero, Nat.sub_zero, ← hstim]
  | succ n ih =>
    have hstep : step s = .next s.tick := step_hold hflt hst (hstim ▸ quiet_replicate m)
    have hleft : s.tick.stim = List.replicate (m - 1) .silent := by rw [State.tick_stim, hstim, passSilent_replicate]
    rw [run_next n hstep, ih s.tick (m - 1) hflt hst hleft, Nat.sub_sub, Nat.add_comm 1 n]
    rfl

/-! ### F2 without a pressure request -/

/-- In TX1 an unrequested pressure slot holds its filler in byte 8. -/
theorem State.Inv.pressure_filler_of_tx1 (h : s.Inv) (hst : s.st = .tx1) (hsel : s.selected .pressure = false) :
    s.buf.read 8 = 0xFF :=
  h.fillers .pressure (by rw [hst]; decide) hsel 8 (by decide : 8 ≤ 8 ∧ 8 < 8 + 1)

/-- With byte 8 not zero, F1's acceptance logs F1 and goes on to F2 (42_frame_dispatch.md R78). -/
theorem afterF1_of_nonzero (h : s.buf.read 8 ≠ 0) :
    afterF1 s = { s with st := .tx2, log := s.log ++ [.sent (frame1 s.buf)] } := by
  rw [afterF1_eq, if_neg h]

/-- Settles O34: byte 8 is the filler 0xFF (`pressure_filler_of_tx1`), which is not zero, so F2 follows with it. -/
theorem unrequestedPressureStillSendsF2 : Obligations.UnrequestedPressureStillSendsF2 := by
  intro s rest hinv hst hsel hstim
  have hfiller : s.buf.read 8 = 0xFF := hinv.pressure_filler_of_tx1 hst hsel
  have hoffer : frame2 s.buf = { id := 0x1A6, len := 1, data := [0xFF] } := by rw [← hfiller]; rfl
  have haccept := step_tx1_accepted hst hinv.noFault hstim
  rw [afterF1_of_nonzero (by simp [hfiller])] at haccept
  exact ⟨_, haccept, rfl, congrArg some hoffer⟩

/-! ### The reset event -/

/-- After a reset event each buffer byte reads as the event draws it. -/
theorem applyReset_read (d : ResetDraw) (s : State) (i : Fin 9) : (applyReset d s).buf.read i = d.buf[i] := by
  have hread := bufferFrom_read d.buf.toList 0 (by simp) i
  rw [Nat.zero_add] at hread
  rw [applyReset_buf, hread]
  simp

/-- Settles O2: the step is the reset (`step_reset`), whose buffer holds the drawn bytes in canonical form. -/
theorem resetEventAbandonsCycle : Obligations.ResetEventAbandonsCycle := by
  intro s d rest hstim
  exact ⟨_, step_reset hstim, rfl, rfl, rfl, rfl, rfl, applyReset_read d _, (applyReset_inv d _).canonical, rfl, rfl, rfl, rfl⟩

/-! ### The wide reading that looks like the filler -/

/-- The bytes of the wide reading 65535 are the filler bytes of a wide slot. -/
theorem answerBytes_wide_max {k : Slot} (hk : k.width = 2) (p : Params) (drawn : Byte) :
    answerBytes p drawn (.wide 65535) = List.replicate k.width (fillerOf k) := by
  cases k with
  | methane | co2 | co => rfl
  | temperature | humidity | pressure => cases hk

theorem answerInType_wide_max {k : Slot} (hk : k.width = 2) (f : FloatFormat) : answerInType f k (.wide 65535) := by
  have hrange : (0 : Int) ≤ 65535 ∧ (65535 : Int) ≤ 65535 := by decide
  cases k with
  | methane | co2 | co => exact hrange
  | temperature | humidity | pressure => cases hk

/-- Settles O24: the completion and the fill write the same bytes (`answerBytes_wide_max`) at the same place. -/
theorem wideFillerLooksLikeData : Obligations.WideFillerLooksLikeData := by
  intro s u k rest hk hst hcur hstim hust hucur hquiet hbuf
  have hfill := (exec_fillOf k u).trans (fillSlot_at_offset hust hucur hquiet (fillerOf k))
  refine ⟨_, _, exec_encOf_answered_at_offset hst hcur hstim (answerInType_wide_max hk _), hfill, ?_, rfl⟩
  simp only [answerBytes_wide_max hk, hbuf]

end Sys2Proof.Machine
